-- ==== Sys2Proof/Word.lean ====
section
/-! DEFINITION. The two word types of the engine (00_scope.md R8: every value is an unsigned integer). -/

namespace Sys2Proof

/-- A register or bus value: 32 bits (00_scope.md R6, "register width"). -/
abbrev Word := BitVec 32

/-- One byte of a byte string (00_scope.md R9). -/
abbrev Byte := BitVec 8

end Sys2Proof
end

