-- ==== Sys2Proof/Syntax.lean ====
section
/-! DEFINITION. The commands of the engine: one constructor per row of spec/opcode_table.json (30_encoding.md R58). -/

namespace Sys2Proof

/-- A decoded command. `n` is the count field N of the formats N4 (bits 2:0) and N32 (bits 5:0), unchanged
(30_encoding.md R57); which values of it are legal is `Instr.wellFormed`. -/
inductive Instr where
  | nop
  | srst
  | clrerr
  | crcInit
  | crcUpd (n : BitVec 3)
  | crcOut
  | pkRow
  | pkPix
  | pkBits (n : BitVec 6)
  | cmpStart
  | cmpWr (n : BitVec 3)
  | cmpFinish
deriving DecidableEq, Repr

end Sys2Proof
end

