-- ==== Sys2Proof/WellFormed.lean ====
section
/-! DEFINITION. Which commands are legal (30_encoding.md R57): the count of format N4 is 1 to 4, that of N32 is 1 to 32. -/

namespace Sys2Proof

/-- The count of a format N4 command is legal: 1 to 4 (30_encoding.md R57). -/
def countN4Ok (n : BitVec 3) : Bool := decide (1 ≤ n.toNat ∧ n.toNat ≤ 4)

/-- The count of a format N32 command is legal: 1 to 32 (30_encoding.md R57). -/
def countN32Ok (n : BitVec 6) : Bool := decide (1 ≤ n.toNat ∧ n.toNat ≤ 32)

/-- A legal command of 30_encoding.md R59. -/
def Instr.wellFormed : Instr → Bool
  | .nop => true
  | .srst => true
  | .clrerr => true
  | .crcInit => true
  | .crcUpd n => countN4Ok n
  | .crcOut => true
  | .pkRow => true
  | .pkPix => true
  | .pkBits n => countN32Ok n
  | .cmpStart => true
  | .cmpWr n => countN4Ok n
  | .cmpFinish => true

end Sys2Proof
end

