-- ==== Sys2Proof/Decode.lean ====
section
/-! DEFINITION. Decoding of a command word, total on all 2^32 words and refusing by name (30_encoding.md R60), and the
encoder (R58). -/

namespace Sys2Proof

/-- The reasons a command or an access is refused (60_exceptions.md R122); NONE is never raised and has no constructor. -/
inductive ErrorName where
  | illegalOpcode
  | reservedArg
  | badCount
  | noStream
  | streamOpen
  | rowActive
  | noRow
  | rowOverrun
  | zeroWidth
  | access
deriving DecidableEq, Repr

/-- The code of a refusal in STATUS.ERRCODE (60_exceptions.md R122). -/
def errorCode : ErrorName → Byte
  | .illegalOpcode => 0x01#8
  | .reservedArg => 0x02#8
  | .badCount => 0x03#8
  | .noStream => 0x04#8
  | .streamOpen => 0x05#8
  | .rowActive => 0x06#8
  | .noRow => 0x07#8
  | .rowOverrun => 0x08#8
  | .zeroWidth => 0x09#8
  | .access => 0x0A#8

/-- What an opcode selects: its format (30_encoding.md R57) and the command, given the count where it has one. -/
inductive OpcodeRow where
  | z (i : Instr)
  | n4 (mk : BitVec 3 → Instr)
  | n32 (mk : BitVec 6 → Instr)

/-- OPC, bits 31:24 of the command word (30_encoding.md R56). -/
def fieldOpc (w : Word) : Byte := w.extractLsb' 24 8

/-- ARG, bits 23:0: all reserved in format Z (30_encoding.md R57). -/
def fieldRsvZ (w : Word) : BitVec 24 := w.extractLsb' 0 24

/-- RSV of format N4, bits 23:3 (30_encoding.md R57). -/
def fieldRsvN4 (w : Word) : BitVec 21 := w.extractLsb' 3 21

/-- N of format N4, bits 2:0 (30_encoding.md R57). -/
def fieldN4 (w : Word) : BitVec 3 := w.extractLsb' 0 3

/-- RSV of format N32, bits 23:6 (30_encoding.md R57). -/
def fieldRsvN32 (w : Word) : BitVec 18 := w.extractLsb' 6 18

/-- N of format N32, bits 5:0 (30_encoding.md R57). -/
def fieldN32 (w : Word) : BitVec 6 := w.extractLsb' 0 6

/-- The opcode map (30_encoding.md R58); every opcode not in it is illegal. -/
def opcodeRow (opc : Byte) : Option OpcodeRow :=
  match opc.toNat with
  | 0x00 => some (.z .nop)
  | 0x01 => some (.z .srst)
  | 0x02 => some (.z .clrerr)
  | 0x10 => some (.z .crcInit)
  | 0x11 => some (.n4 .crcUpd)
  | 0x12 => some (.z .crcOut)
  | 0x20 => some (.z .pkRow)
  | 0x21 => some (.z .pkPix)
  | 0x22 => some (.n32 .pkBits)
  | 0x30 => some (.z .cmpStart)
  | 0x31 => some (.n4 .cmpWr)
  | 0x32 => some (.z .cmpFinish)
  | _ => none

/-- The count of a format N4 command is refused: `N = 0 or N > 4` (30_encoding.md R60). -/
def badCountN4 (n : BitVec 3) : Bool := decide (n.toNat = 0 ∨ 4 < n.toNat)

/-- The count of a format N32 command is refused: `N = 0 or N > 32` (30_encoding.md R60). -/
def badCountN32 (n : BitVec 6) : Bool := decide (n.toNat = 0 ∨ 32 < n.toNat)

/-- The decoding steps of 30_encoding.md R60, in its order: the opcode, then the reserved bits, then the count. -/
def decode (w : Word) : Except ErrorName Instr :=
  match opcodeRow (fieldOpc w) with
  | none => .error .illegalOpcode
  | some (.z i) => if fieldRsvZ w ≠ 0 then .error .reservedArg else .ok i
  | some (.n4 mk) =>
    if fieldRsvN4 w ≠ 0 then .error .reservedArg
    else if badCountN4 (fieldN4 w) then .error .badCount else .ok (mk (fieldN4 w))
  | some (.n32 mk) =>
    if fieldRsvN32 w ≠ 0 then .error .reservedArg
    else if badCountN32 (fieldN32 w) then .error .badCount else .ok (mk (fieldN32 w))

/-- The command word of a command (30_encoding.md R58). -/
def encode : Instr → Word
  | .nop => 0x00000000#32
  | .srst => 0x01000000#32
  | .clrerr => 0x02000000#32
  | .crcInit => 0x10000000#32
  | .crcUpd n => 0x11000000#32 ||| n.setWidth 32
  | .crcOut => 0x12000000#32
  | .pkRow => 0x20000000#32
  | .pkPix => 0x21000000#32
  | .pkBits n => 0x22000000#32 ||| n.setWidth 32
  | .cmpStart => 0x30000000#32
  | .cmpWr n => 0x31000000#32 ||| n.setWidth 32
  | .cmpFinish => 0x32000000#32

/-- The match value of a command's row (30_encoding.md R59). -/
def rowMatch : Instr → Word
  | .nop => 0x00000000#32
  | .srst => 0x01000000#32
  | .clrerr => 0x02000000#32
  | .crcInit => 0x10000000#32
  | .crcUpd _ => 0x11000000#32
  | .crcOut => 0x12000000#32
  | .pkRow => 0x20000000#32
  | .pkPix => 0x21000000#32
  | .pkBits _ => 0x22000000#32
  | .cmpStart => 0x30000000#32
  | .cmpWr _ => 0x31000000#32
  | .cmpFinish => 0x32000000#32

/-- The mask of a command's row (30_encoding.md R59). -/
def rowMask : Instr → Word
  | .nop => 0xFFFFFFFF#32
  | .srst => 0xFFFFFFFF#32
  | .clrerr => 0xFFFFFFFF#32
  | .crcInit => 0xFFFFFFFF#32
  | .crcUpd _ => 0xFFFFFFF8#32
  | .crcOut => 0xFFFFFFFF#32
  | .pkRow => 0xFFFFFFFF#32
  | .pkPix => 0xFFFFFFFF#32
  | .pkBits _ => 0xFFFFFFC0#32
  | .cmpStart => 0xFFFFFFFF#32
  | .cmpWr _ => 0xFFFFFFF8#32
  | .cmpFinish => 0xFFFFFFFF#32

/-- The 32-bit number on the bus for a command of `nbits` bits `w`, every bit above `nbits` zero. A command is one
word, and the order of its bytes is not observable (20_memory.md R49, 30_encoding.md R56). -/
def commandWord (nbits w : Nat) : Word := BitVec.ofNat 32 (w % 2 ^ nbits)

/-- The command the decoder reads from a word of the opcode table, or none where it refuses. -/
def decodeTableWord (nbits w : Nat) : Option Instr :=
  match decode (commandWord nbits w) with
  | .ok i => some i
  | .error _ => none

end Sys2Proof
end

