-- ==== Sys2Proof/Config.lean ====
section
/-! DEFINITION. What an implementation fixes (00_scope.md R6) and the free values (00_scope.md R10 `any value`).
Every constant declared `opaque` has no body: no proof can see its value, so what is proved holds for every value of it. -/

namespace Sys2Proof.Config

/-- Which 4096-byte page the platform maps the aperture at; `BASE` is OPEN (92_eei_decisions.md D2). -/
opaque basePage : Nat

/-- `BASE`: the host address of offset 0 of the aperture, a multiple of 4096 (00_scope.md R6, 20_memory.md R41). -/
def base : Nat := 4096 * basePage

/-- Which of the admitted output RAM sizes this engine has; `OUT_RAM_BYTES` is OPEN (92_eei_decisions.md D26). -/
opaque outRamChoice : Fin 262142

/-- `OUT_RAM_BYTES`: any multiple of 4 from 12 to 2^20 (00_scope.md R6).
The 262142 admitted sizes are numbered from 4096, the size of 95_test_vectors.md, upwards and then round from 12. -/
@[irreducible] def outRamBytes : Nat := 12 + 4 * ((outRamChoice.val + 1021) % 262142)

/-- `FILTER_LAST`: the largest filter tag FILTER accepts; decided as 2 (00_scope.md R6, 92_eei_decisions.md D18). -/
def filterLast : Nat := 2

/-- `DEFLATE_IMPL(level, input)`: the compressed body at levels 1 to 9, OPEN (92_eei_decisions.md D23).
42_compressor.md R100: an opaque function, whose laws (R98, R99) are hypotheses a proof may take. -/
opaque deflateImpl (level : BitVec 4) (input : List Byte) : List Byte

/-- The free values of `out_ram` and of the OUT window (93_implementation_defined.md I1 to I3).
`freeByte d i` is the byte at index `i` in the draw numbered `d`; the draw number stands in the state and
advances, so two draws need not agree. -/
opaque freeByte (draw : Nat) (index : Nat) : Byte

/-- The modulus of Adler-32, the largest prime below 2^16 (42_compressor.md R88). -/
abbrev adlerMod : Nat := 65521

end Sys2Proof.Config
end

