-- ==== Sys2Proof/Machine/State.lean ====
section
/-! DEFINITION. The state of the engine (10_state.md R16), unit by unit, and its reset value (R38). -/

namespace Sys2Proof.Machine

/-- The output RAM as (index, byte) pairs (10_state.md R31). Canonical form: indices strictly rising. An index that is
not listed holds `any value` (R38, 93_implementation_defined.md I1 to I3), which no byte can equal. -/
abbrev Memory := List Host.Cell

/-- The width of a host bus access: 1, 2, 4 or 8 bytes (20_memory.md R45). -/
inductive Width where
  | w8
  | w16
  | w32
  | w64
deriving DecidableEq, Repr

/-- What the outside can do to the engine: one bus access at an offset into the aperture (20_memory.md R46), or the
platform's reset signal (70_reset_and_hazards.md R137). Only an access of 32 bits has an effect that depends on its
value, so a write carries 32 bits whatever its width. -/
inductive Event where
  | read (off : Nat) (width : Width)
  | write (off : Nat) (width : Width) (value : Word)
  | powerOnReset
deriving DecidableEq, Repr

/-- The registers the host writes (10_state.md R23, R25 to R28). -/
structure Registers where
  /-- DATA: the operand register (R23). -/
  data : Word
  /-- LEVEL[3:0]: the level of the next stream (R25). -/
  level : BitVec 4
  /-- FILTER[7:0]: the filter tag of the next row (R26). -/
  filter : Byte
  /-- WIDTH: the image width in pixels (R27). -/
  width : Word
  /-- INK: the foreground colour (R28). -/
  ink : Word
deriving DecidableEq, Repr

/-- The packer unit (10_state.md R33). -/
structure Packer where
  /-- STATUS.ROW_ACTIVE. -/
  pkActive : Bool
  /-- The width latched by PK_ROW. -/
  pkW : Word
  /-- The pixels of the current row consumed so far. -/
  pkX : Word
  /-- The partly filled output byte. -/
  pkAcc : Byte
  /-- The number of bits in `pkAcc`, 0 to 7. -/
  pkNbits : BitVec 3
  /-- The rows completed in the current or last stream, modulo 2^32. -/
  pkRows : Word
deriving DecidableEq, Repr

/-- The compressor unit's input side (10_state.md R34). -/
structure Compressor where
  /-- STATUS.CMP_OPEN. -/
  cmpOpen : Bool
  /-- STATUS.STREAM_LEVEL: the level latched by CMP_START. -/
  cmpLevel : BitVec 4
  /-- Every byte entered since the last CMP_START, in order. -/
  cmpIn : List Byte
  /-- The number of bytes entered, modulo 2^32. -/
  cmpCount : Word
  /-- The Adler-32 sum A, 0 to 65520. -/
  adlerA : Fin Config.adlerMod
  /-- The Adler-32 sum B, 0 to 65520. -/
  adlerB : Fin Config.adlerMod
deriving DecidableEq, Repr

/-- The compressor unit's output side and the output RAM (10_state.md R31, R34). -/
structure Output where
  /-- The output RAM, `OUT_RAM_BYTES` bytes. -/
  outRam : Memory
  /-- STATUS.OUT_VALID. -/
  outValid : Bool
  /-- The length of the finished stream. -/
  outLen : Word
  /-- STATUS.CFAIL: CompressionFailure. -/
  cfail : Bool
deriving DecidableEq, Repr

/-- The error record (10_state.md R35). -/
structure ErrorRecord where
  /-- STATUS.ERR. -/
  err : Bool
  /-- STATUS.ERRCODE. -/
  errCode : Byte
deriving DecidableEq, Repr

/-- The model's own fields: not state of the engine (10_state.md R16) but its input, its output and the place of the
free values. -/
structure Port where
  /-- The host's accesses not yet performed, the next one first (00_scope.md R14: one at a time, in order). -/
  pending : List Event
  /-- The values the reads have returned, oldest first (70_reset_and_hazards.md R144). -/
  readLog : List Word
  /-- The number of the next draw of free values (`Config.freeByte`). -/
  draw : Nat
deriving DecidableEq, Repr

/-- The state of the machine. -/
structure State where
  /-- The registers the host writes. -/
  regs : Registers
  /-- The CRC register before the final complement (10_state.md R32). -/
  crcAcc : Word
  /-- The packer unit. -/
  packer : Packer
  /-- The compressor unit's input side. -/
  comp : Compressor
  /-- The compressor unit's output side and the output RAM. -/
  out : Output
  /-- The error record. -/
  error : ErrorRecord
  /-- The model's own fields. -/
  port : Port
deriving DecidableEq, Repr

/-- Why the machine stops. -/
inductive Fault where
  /-- Raised by `step` for a pending access at an offset outside the aperture: the engine does not decode such an
  access, and what it does is the platform's (20_memory.md R43). Safe: the host is assumed never to make one
  (93_implementation_defined.md I13). -/
  | outsideAperture
deriving DecidableEq, Repr

/-- Why a meaning is refused. -/
inductive Refusal where
  /-- For an arm of `exec` whose instruction has no meaning yet: no arm uses it. Safe. -/
  | notModelled (mnemonic : String)
deriving DecidableEq, Repr

/-- The registers after reset (10_state.md R38). -/
def Registers.reset : Registers :=
  { data := 0x00000000#32, level := 0#4, filter := 0x00#8, width := 0x00000000#32, ink := 0xFF000000#32 }

/-- The packer after reset (10_state.md R38). -/
def Packer.reset : Packer :=
  { pkActive := false, pkW := 0#32, pkX := 0#32, pkAcc := 0#8, pkNbits := 0#3, pkRows := 0#32 }

/-- The compressor's input side after reset (10_state.md R38). -/
def Compressor.reset : Compressor :=
  { cmpOpen := false, cmpLevel := 0#4, cmpIn := [], cmpCount := 0#32, adlerA := 1, adlerB := 0 }

/-- The compressor's output side after reset (10_state.md R38); no byte of the RAM is listed, so every one holds
`any value`. -/
def Output.reset : Output :=
  { outRam := [], outValid := false, outLen := 0#32, cfail := false }

/-- The error record after reset (10_state.md R38). -/
def ErrorRecord.reset : ErrorRecord :=
  { err := false, errCode := 0x00#8 }

/-- The machine right after power-on reset (10_state.md R38, 70_reset_and_hazards.md R137), with no access pending, no
value read and no draw made. -/
def State.reset : State :=
  { regs := Registers.reset, crcAcc := 0xFFFFFFFF#32, packer := Packer.reset, comp := Compressor.reset,
    out := Output.reset, error := ErrorRecord.reset, port := { pending := [], readLog := [], draw := 0 } }

end Sys2Proof.Machine
end

