-- ==== Sys2Proof/Machine/Ops.lean ====
section
/-! DEFINITION. The named operations every meaning is built from: the output RAM, the updates of the state's parts, the
refusal (60_exceptions.md R121), reset (44_control.md R115) and a byte entering the compressor (42_compressor.md R87). -/

namespace Sys2Proof.Machine

/-- The indices are strictly rising: the canonical form of the output RAM. -/
def Memory.wf (m : Memory) : Bool := decide (m.Pairwise (fun c d => c.1 < d.1))

/-- Every listed index lies below `size`. -/
def Memory.within (size : Nat) (m : Memory) : Bool := m.all (fun c => decide (c.1 < size))

/-- The byte written at an index; `none` where the index holds `any value`. -/
def Memory.read : Memory → Nat → Option Byte
  | [], _ => none
  | (k, v) :: m, a => if k = a then some v else Memory.read m a

/-- Write one byte, keeping the indices strictly rising. -/
def Memory.write : Memory → Nat → Byte → Memory
  | [], a, b => [(a, b)]
  | (k, v) :: m, a, b =>
    if a < k then (a, b) :: (k, v) :: m
    else if a = k then (a, b) :: m
    else (k, v) :: Memory.write m a b

/-- Write a byte string from index `a` upwards (42_compressor.md R91). -/
def Memory.writeBytes (m : Memory) (a : Nat) : List Byte → Memory
  | [] => m
  | b :: bs => Memory.write (Memory.writeBytes m (a + 1) bs) a b

/-- Replace the registers the host writes. -/
def State.setRegs (s : State) (r : Registers) : State := { s with regs := r }

/-- Replace the CRC register. -/
def State.setCrc (s : State) (c : Word) : State := { s with crcAcc := c }

/-- Replace the packer unit's state. -/
def State.setPacker (s : State) (p : Packer) : State := { s with packer := p }

/-- Replace the compressor's input side. -/
def State.setComp (s : State) (c : Compressor) : State := { s with comp := c }

/-- Replace the compressor's output side. -/
def State.setOut (s : State) (o : Output) : State := { s with out := o }

/-- Replace the error record. -/
def State.setError (s : State) (e : ErrorRecord) : State := { s with error := e }

/-- Replace the model's own fields. -/
def State.setPort (s : State) (p : Port) : State := { s with port := p }

/-- Use up one draw of free values, so that a later draw need not agree with it (93_implementation_defined.md I1). -/
def nextDraw (s : State) : State := s.setPort { s.port with draw := s.port.draw + 1 }

/-- Return a value to the host (70_reset_and_hazards.md R144). -/
def returnValue (v : Word) (s : State) : State := s.setPort { s.port with readLog := s.port.readLog ++ [v] }

/-- `raise Error(code)` (60_exceptions.md R121, R123): the first refusal since the record was cleared is recorded, and
nothing else happens. -/
def raise (e : ErrorName) (s : State) : State :=
  if s.error.err then s else s.setError { err := true, errCode := errorCode e }

/-- The host's acknowledgement of a refusal (60_exceptions.md R129): the error record is cleared. -/
def clearError (s : State) : State := s.setError ErrorRecord.reset

/-- Every state element of 10_state.md R38 to its reset value, and every byte of the output RAM to `any value`: power-on
reset (70_reset_and_hazards.md R137) and SRST (44_control.md R115). The host's accesses and what it has read are not
state of the engine and stay. -/
def resetEngine (s : State) : State := nextDraw (State.reset.setPort s.port)

/-- The byte of the output RAM at an index: the byte written, or a free value where there is none
(10_state.md R31, R38). -/
def ramByte (s : State) (i : Nat) : Byte :=
  match s.out.outRam.read i with
  | some b => b
  | none => Config.freeByte s.port.draw i

/-- The finished stream, `out_ram[0 .. out_len)` (10_state.md R31). -/
def outBytes (s : State) : List Byte := (List.range s.out.outLen.toNat).map (ramByte s)

/-- The running sums of Adler-32 after one more byte (42_compressor.md R87): the new A, then B with the new A. -/
def adlerStep (a b : Fin Config.adlerMod) (x : Byte) : Fin Config.adlerMod × Fin Config.adlerMod :=
  let a' := Fin.ofNat Config.adlerMod (a.val + x.toNat)
  (a', Fin.ofNat Config.adlerMod (b.val + a'.val))

/-- The compressor's input side after one byte has entered (42_compressor.md R87). -/
def Compressor.enter (c : Compressor) (x : Byte) : Compressor :=
  { c with
    cmpIn := c.cmpIn ++ [x]
    cmpCount := c.cmpCount + 1
    adlerA := (adlerStep c.adlerA c.adlerB x).1
    adlerB := (adlerStep c.adlerA c.adlerB x).2 }

/-- `CmpIn(b)`: one byte enters the compressor input of the open stream (42_compressor.md R87). -/
def cmpInByte (x : Byte) (s : State) : State := s.setComp (s.comp.enter x)

/-- A byte string enters the compressor input, in order. -/
def cmpInBytes (xs : List Byte) (s : State) : State := xs.foldl (fun t x => cmpInByte x t) s

end Sys2Proof.Machine
end

