-- ==== Sys2Proof/Machine/Operands.lean ====
section
/-! DEFINITION. The operands taken from DATA (30_encoding.md R61, R62) and the byte strings of a number
(00_scope.md R9). -/

namespace Sys2Proof.Machine

/-- `DataBytes(N)`: the low N bytes of DATA, most significant first (30_encoding.md R61). -/
def dataBytes (n : Nat) (data : Word) : List Byte :=
  (List.range n).map (fun k => data.extractLsb' (8 * (n - 1 - k)) 8)

/-- `DataBits(N)`: the top N bits of DATA, most significant first; `true` is 1, a background pixel
(30_encoding.md R62). -/
def dataBits (n : Nat) (data : Word) : List Bool :=
  (List.range n).map (fun k => data.getLsbD (31 - k))

/-- `BE32(v)`: the 4 bytes of a word, most significant first (00_scope.md R9). -/
def be32 (v : Word) : List Byte :=
  [v.extractLsb' 24 8, v.extractLsb' 16 8, v.extractLsb' 8 8, v.extractLsb' 0 8]

/-- `LE16(v)`: the 2 bytes of a 16-bit value, least significant first (00_scope.md R9). -/
def le16 (v : BitVec 16) : List Byte := [v.extractLsb' 0 8, v.extractLsb' 8 8]

/-- Four bytes as a word, the first in bits 31:24 (20_memory.md R44). -/
def packWord (b0 b1 b2 b3 : Byte) : Word := b0 ++ b1 ++ b2 ++ b3

end Sys2Proof.Machine
end

