-- ==== Sys2Proof/Machine/Flags.lean ====
section
/-! DEFINITION. The flags of STATUS (10_state.md R21, R36) and the other computed views of the state (R29, R30). -/

namespace Sys2Proof.Machine

/-- One flag at its bit position. -/
def flagBit (b : Bool) (pos : Nat) : Word := (BitVec.ofBool b).setWidth 32 <<< pos

/-- The STATUS register (10_state.md R21): CMP_OPEN 0, ROW_ACTIVE 1, OUT_VALID 2, CFAIL 3, ERR 4, ERRCODE 15:8,
STREAM_LEVEL 19:16, every other bit 0. -/
def statusWord (s : State) : Word :=
  flagBit s.comp.cmpOpen 0 ||| flagBit s.packer.pkActive 1 ||| flagBit s.out.outValid 2 ||| flagBit s.out.cfail 3
    ||| flagBit s.error.err 4 ||| (s.error.errCode.setWidth 32 <<< 8) ||| (s.comp.cmpLevel.setWidth 32 <<< 16)

/-- The CRC register after its final complement (40_crc.md R68). -/
def crcComplement (c : Word) : Word := c ^^^ 0xFFFFFFFF#32

/-- The CRC_VALUE register (10_state.md R29). -/
def crcValue (s : State) : Word := crcComplement s.crcAcc

/-- `(B << 16) | A`, an Adler-32 value (42_compressor.md R88). -/
def adlerWord (a b : Fin Config.adlerMod) : Word :=
  (BitVec.ofNat 32 b.val <<< 16) ||| BitVec.ofNat 32 a.val

/-- The ADLER_VALUE register (10_state.md R30). -/
def adlerValue (s : State) : Word := adlerWord s.comp.adlerA s.comp.adlerB

end Sys2Proof.Machine
end

