-- ==== Sys2Proof/Machine/Bus.lean ====
section
/-! DEFINITION. The register map (10_state.md R19), what a read returns and a write does (44_control.md R117, R118), and
what the machine does with the next access of the host (20_memory.md R40 to R51). -/

namespace Sys2Proof.Machine

/-- The 14 registers of the aperture (10_state.md R19). -/
inductive Reg where
  | id
  | status
  | cmd
  | data
  | level
  | filter
  | width
  | ink
  | crcValue
  | pkX
  | pkRows
  | inCount
  | outLen
  | adlerValue
deriving DecidableEq, Repr

/-- The offset of a register (10_state.md R19). -/
def regOffset : Reg → Nat
  | .id => 0x000
  | .status => 0x004
  | .cmd => 0x008
  | .data => 0x00C
  | .level => 0x010
  | .filter => 0x014
  | .width => 0x018
  | .ink => 0x01C
  | .crcValue => 0x020
  | .pkX => 0x024
  | .pkRows => 0x028
  | .inCount => 0x02C
  | .outLen => 0x030
  | .adlerValue => 0x034

/-- The registers in the order of the map. -/
def allRegs : List Reg :=
  [.id, .status, .cmd, .data, .level, .filter, .width, .ink, .crcValue, .pkX, .pkRows, .inCount, .outLen, .adlerValue]

/-- The register at an offset, if there is one (20_memory.md R46). -/
def regAt (off : Nat) : Option Reg := allRegs.find? (fun r => regOffset r == off)

/-- The offset of the OUT window (20_memory.md R41). -/
def windowBase : Nat := 0x1000

/-- The number of bytes of the aperture (20_memory.md R41). -/
def apertureBytes : Nat := windowBase + Config.outRamBytes

/-- An offset lies in the aperture, `off < 0x1000 + OUT_RAM_BYTES` (20_memory.md R46). -/
def inAperture (off : Nat) : Bool := decide (off < windowBase) || decide (off - windowBase < Config.outRamBytes)

/-- The engine accepts only aligned 32-bit accesses (20_memory.md R45). -/
def isWordAccess (off : Nat) (w : Width) : Bool := decide (w = .w32) && decide (off % 4 = 0)

/-- The ID register: "CDP" and the version 1 (10_state.md R24). -/
def idValue : Word := 0x43445001#32

/-- The value a register reads as (44_control.md R118). -/
def readReg (s : State) : Reg → Word
  | .id => idValue
  | .status => statusWord s
  | .cmd => 0x00000000#32
  | .data => s.regs.data
  | .level => s.regs.level.setWidth 32
  | .filter => s.regs.filter.setWidth 32
  | .width => s.regs.width
  | .ink => s.regs.ink
  | .crcValue => crcValue s
  | .pkX => s.packer.pkX
  | .pkRows => s.packer.pkRows
  | .inCount => s.comp.cmpCount
  | .outLen => s.out.outLen
  | .adlerValue => adlerValue s

/-- A byte of the OUT window is defined: a finished stream is held and reaches past it (20_memory.md R44). -/
def windowDefined (s : State) (i : Nat) : Bool := s.out.outValid && decide (i < s.out.outLen.toNat)

/-- `byte(i)` of the OUT window: the stream's byte where it is defined, else a free value (20_memory.md R44). -/
def windowByte (s : State) (i : Nat) : Byte :=
  if windowDefined s i then ramByte s i else Config.freeByte s.port.draw i

/-- Word `k` of the OUT window, byte `4k` in bits 31:24 (20_memory.md R44). -/
def windowWord (s : State) (k : Nat) : Word :=
  packWord (windowByte s (4 * k)) (windowByte s (4 * k + 1)) (windowByte s (4 * k + 2)) (windowByte s (4 * k + 3))

/-- The value an aligned 32-bit read returns (44_control.md R118): a register, 0 at a reserved offset (20_memory.md
R42), a word of the OUT window from 0x1000 on. -/
def readWord (off : Nat) (s : State) : Word :=
  match regAt off with
  | some r => readReg s r
  | none => if off < windowBase then 0x00000000#32 else windowWord s ((off - windowBase) / 4)

/-- An aligned 32-bit read at `off` draws a free value: it is in the OUT window and its last byte is not defined. -/
def readDraws (off : Nat) (s : State) : Bool :=
  !decide (off < windowBase) && !windowDefined s (4 * ((off - windowBase) / 4) + 3)

/-- A host read (20_memory.md R45, R51): an aligned 32-bit read returns a value and changes nothing, but that the draw of
a free value is used up; any other read returns 0 and records an ACCESS error (60_exceptions.md R124). -/
def busRead (off : Nat) (w : Width) (s : State) : State :=
  if isWordAccess off w then
    returnValue (readWord off s) (if readDraws off s then nextDraw s else s)
  else returnValue 0x00000000#32 (raise .access s)

/-- The write rule of LEVEL: a value above 9 is ignored (10_state.md R25). -/
def writeLevel (v : Word) (r : Registers) : Registers :=
  if v.toNat ≤ 9 then { r with level := v.setWidth 4 } else r

/-- The write rule of FILTER: a value above `FILTER_LAST` is coerced to 0 (10_state.md R26). -/
def writeFilter (v : Word) (r : Registers) : Registers :=
  if v.toNat ≤ Config.filterLast then { r with filter := v.setWidth 8 } else { r with filter := 0x00#8 }

/-- A write to a register other than CMD (44_control.md R117): DATA, WIDTH and INK store the value, LEVEL and FILTER
store a legal one, and a write to any other register is ignored (20_memory.md R47). -/
def writeReg (r : Reg) (v : Word) (s : State) : State :=
  match r with
  | .data => s.setRegs { s.regs with data := v }
  | .level => s.setRegs (writeLevel v s.regs)
  | .filter => s.setRegs (writeFilter v s.regs)
  | .width => s.setRegs { s.regs with width := v }
  | .ink => s.setRegs { s.regs with ink := v }
  | .id => s
  | .status => s
  | .cmd => s
  | .crcValue => s
  | .pkX => s
  | .pkRows => s
  | .inCount => s
  | .outLen => s
  | .adlerValue => s

/-- What the machine does next. -/
inductive Action where
  /-- Execute a decoded command. -/
  | run (i : Instr) (s : State)
  /-- The access, if there was one, is complete. -/
  | done (s : State)
  /-- The access is not one to the engine. -/
  | outside

/-- A command word is decoded before any state check, and a word that is no command is refused (30_encoding.md R60). -/
def busCommand (w : Word) (s : State) : Action :=
  match decode w with
  | .ok i => .run i s
  | .error e => .done (raise e s)

/-- A host write (44_control.md R117): an aligned 32-bit write to CMD is a command, to another register the write of
that register, anywhere else ignored (20_memory.md R42, R47); any other write records an ACCESS error and changes
nothing else (60_exceptions.md R124). -/
def busWrite (off : Nat) (w : Width) (v : Word) (s : State) : Action :=
  if isWordAccess off w then
    match regAt off with
    | some .cmd => busCommand v s
    | some r => .done (writeReg r v s)
    | none => .done s
  else .done (raise .access s)

/-- One event from outside reaches the engine. -/
def deliver (e : Event) (s : State) : Action :=
  match e with
  | .read off w => if inAperture off then .done (busRead off w s) else .outside
  | .write off w v => if inAperture off then busWrite off w v s else .outside
  | .powerOnReset => .done (resetEngine s)

/-- The state once its next access has been taken up, before it is performed. -/
def takeEvent (rest : List Event) (s : State) : State := s.setPort { s.port with pending := rest }

/-- What the machine does next: it performs the host's next access (20_memory.md R50), and does nothing where there is
none (00_scope.md R14, 60_exceptions.md R136). -/
def accept (s : State) : Action :=
  match s.port.pending with
  | [] => .done s
  | e :: rest => deliver e (takeEvent rest s)

/-- The host's write of a command word to CMD: an aligned 32-bit write at offset 0x008 (10_state.md R22). -/
def cmdWrite (w : Word) : Event := .write (regOffset .cmd) .w32 w

/-- An event placed before every pending one. -/
def placeFirst (e : Event) (s : State) : State := s.setPort { s.port with pending := e :: s.port.pending }

/-- An event placed after every pending one. -/
def enqueue (e : Event) (s : State) : State := s.setPort { s.port with pending := s.port.pending ++ [e] }

end Sys2Proof.Machine
end

