-- ==== Sys2Proof/Machine/Zlib.lean ====
section
/-! DEFINITION. The finished stream of the compressor (42_compressor.md R88, R92 to R97): the zlib wrapper, the stored
blocks of level 0, and Adler-32. -/

namespace Sys2Proof.Machine

/-- The two running sums of Adler-32 over a byte string, from A = 1 and B = 0 (42_compressor.md R88). -/
def adlerSums (xs : List Byte) : Fin Config.adlerMod × Fin Config.adlerMod :=
  xs.foldl (fun ab x => adlerStep ab.1 ab.2 x) (1, 0)

/-- `Adler32(s)` (42_compressor.md R88). -/
def adler32 (xs : List Byte) : Word := adlerWord (adlerSums xs).1 (adlerSums xs).2

/-- The zlib header byte CMF: DEFLATE with a window of 32768 bytes (42_compressor.md R93). -/
def zlibCmf : Byte := 0x78#8

/-- The zlib header byte FLG by level (42_compressor.md R94). -/
def zlibFlg (level : BitVec 4) : Byte :=
  if level.toNat ≤ 1 then 0x01#8
  else if level.toNat ≤ 5 then 0x5E#8
  else if level.toNat = 6 then 0x9C#8
  else 0xDA#8

/-- The greatest number of bytes in one stored block (42_compressor.md R97). -/
def storedMax : Nat := 65535

/-- One stored block: the header byte with BFINAL in bit 0, LEN and NLEN, the bytes (42_compressor.md R97). -/
def storedBlock (final : Bool) (c : List Byte) : List Byte :=
  (if final then 0x01#8 else 0x00#8)
    :: (le16 (BitVec.ofNat 16 c.length) ++ le16 (BitVec.ofNat 16 c.length ^^^ 0xFFFF#16) ++ c)

/-- The stored blocks of a byte string: every block but the last holds `storedMax` bytes (42_compressor.md R97).
`fuel` counts the blocks still allowed. -/
def storedBlocks : Nat → List Byte → List Byte
  | 0, _ => []
  | fuel + 1, x =>
    if x.length ≤ storedMax then storedBlock true x
    else storedBlock false (x.take storedMax) ++ storedBlocks fuel (x.drop storedMax)

/-- `Stored(x)`: the body at level 0, byte for byte (42_compressor.md R97). -/
def stored (x : List Byte) : List Byte := storedBlocks (x.length + 1) x

/-- `Body(l, x)` for a given `DEFLATE_IMPL` (42_compressor.md R92). -/
def bodyWith (impl : BitVec 4 → List Byte → List Byte) (level : BitVec 4) (x : List Byte) : List Byte :=
  if level = 0#4 then stored x else impl level x

/-- `ZlibStream(l, x)` for a given `DEFLATE_IMPL` (42_compressor.md R92). -/
def zlibStreamWith (impl : BitVec 4 → List Byte → List Byte) (level : BitVec 4) (x : List Byte) : List Byte :=
  [zlibCmf, zlibFlg level] ++ bodyWith impl level x ++ be32 (adler32 x)

/-- `ZlibStream(l, x)`, the result of a stream of level `l` and input `x` (42_compressor.md R83, R86, R92). -/
def zlibStream (level : BitVec 4) (x : List Byte) : List Byte := zlibStreamWith Config.deflateImpl level x

end Sys2Proof.Machine
end

