-- ==== Sys2Proof/Machine/Compressor.lean ====
section
/-! DEFINITION. The compressor unit's commands CMP_START, CMP_WR and CMP_FINISH (42_compressor.md R89 to R91). -/

namespace Sys2Proof.Machine

/-- CMP_START (42_compressor.md R89): the level is latched, the input and the counters are cleared, and the previous
output is discarded; the output RAM itself is not cleared. -/
def execCmpStart (s : State) : Host.Outcome State Fault Refusal :=
  if s.comp.cmpOpen then .next (raise .streamOpen s)
  else .next ((((s.setComp { Compressor.reset with cmpOpen := true, cmpLevel := s.regs.level }).setOut
    { s.out with outValid := false, outLen := 0#32, cfail := false })).setPacker { s.packer with pkRows := 0#32 })

/-- CMP_WR N (42_compressor.md R90; the order of the checks, 60_exceptions.md R125). -/
def execCmpWr (n : BitVec 3) (s : State) : Host.Outcome State Fault Refusal :=
  if badCountN4 n then .next (raise .badCount s)
  else if !s.comp.cmpOpen then .next (raise .noStream s)
  else if s.packer.pkActive then .next (raise .rowActive s)
  else .next (cmpInBytes (dataBytes n.toNat s.regs.data) s)

/-- The stream is closed; its level, input and sums keep their values (42_compressor.md R91). -/
def closeStream (s : State) : State := s.setComp { s.comp with cmpOpen := false }

/-- The end of a stream whose result is `z`, with an output RAM of `cap` bytes (42_compressor.md R91). A result that does
not fit is the CompressionFailure, which is not an error (60_exceptions.md R126): the RAM then holds `any value`. -/
def finishWith (cap : Nat) (z : List Byte) (s : State) : State :=
  if z.length ≤ cap then
    (closeStream s).setOut
      { outRam := s.out.outRam.writeBytes 0 z, outValid := true, outLen := BitVec.ofNat 32 z.length, cfail := false }
  else
    nextDraw ((closeStream s).setOut { outRam := [], outValid := false, outLen := 0#32, cfail := true })

/-- CMP_FINISH (42_compressor.md R91; the order of the checks, 60_exceptions.md R125). -/
def execCmpFinish (s : State) : Host.Outcome State Fault Refusal :=
  if !s.comp.cmpOpen then .next (raise .noStream s)
  else if s.packer.pkActive then .next (raise .rowActive s)
  else .next (finishWith Config.outRamBytes (zlibStream s.comp.cmpLevel s.comp.cmpIn) s)

end Sys2Proof.Machine
end

