-- ==== Sys2Proof/Machine/Control.lean ====
section
/-! DEFINITION. The control commands NOP, SRST and CLRERR (44_control.md R114 to R116). -/

namespace Sys2Proof.Machine

/-- NOP (44_control.md R114). -/
def execNop (s : State) : Host.Outcome State Fault Refusal := .next s

/-- SRST (44_control.md R115): the same effect as power-on reset, in every state. -/
def execSrst (s : State) : Host.Outcome State Fault Refusal := .next (resetEngine s)

/-- CLRERR (44_control.md R116). -/
def execClrerr (s : State) : Host.Outcome State Fault Refusal := .next (clearError s)

end Sys2Proof.Machine
end

