-- ==== Sys2Proof/Machine/Crc.lean ====
section
/-! DEFINITION. The CRC unit (40_crc.md): the byte step, the CRC-32 of a byte string, and the commands CRC_INIT, CRC_UPD
and CRC_OUT. -/

namespace Sys2Proof.Machine

/-- The generator in reflected form (40_crc.md R67). -/
def crcPoly : Word := 0xEDB88320#32

/-- One bit of the CRC step: shift right, and add the generator if the bit shifted out is 1 (40_crc.md R67). -/
def crcShift (c : Word) : Word := if c.getLsbD 0 then (c >>> 1) ^^^ crcPoly else c >>> 1

/-- `k` bits of the CRC step. -/
def crcShifts : Nat → Word → Word
  | 0, c => c
  | k + 1, c => crcShifts k (crcShift c)

/-- `CrcByte(b)` from the register value `c` (40_crc.md R67). -/
def crcByte (c : Word) (b : Byte) : Word := crcShifts 8 (c ^^^ b.setWidth 32)

/-- `CrcBytes(s)` from the register value `c` (40_crc.md R67). -/
def crcBytes (c : Word) (xs : List Byte) : Word := xs.foldl crcByte c

/-- `CRC32(s)` (40_crc.md R68). -/
def crc32 (xs : List Byte) : Word := crcComplement (crcBytes 0xFFFFFFFF#32 xs)

/-- The table entry `T[n]` of the table form (40_crc.md R71). -/
def crcTable (n : Byte) : Word := crcByte (n.setWidth 32) 0x00#8

/-- CRC_INIT (40_crc.md R66). -/
def execCrcInit (s : State) : Host.Outcome State Fault Refusal := .next (s.setCrc 0xFFFFFFFF#32)

/-- CRC_UPD N (40_crc.md R69). -/
def execCrcUpd (n : BitVec 3) (s : State) : Host.Outcome State Fault Refusal :=
  if badCountN4 n then .next (raise .badCount s)
  else .next (s.setCrc (crcBytes s.crcAcc (dataBytes n.toNat s.regs.data)))

/-- CRC_OUT (40_crc.md R70). -/
def execCrcOut (s : State) : Host.Outcome State Fault Refusal :=
  if s.comp.cmpOpen then .next (raise .streamOpen s)
  else .next (s.setCrc (crcBytes s.crcAcc (outBytes s)))

end Sys2Proof.Machine
end

