-- ==== Sys2Proof/Machine/Packer.lean ====
section
/-! DEFINITION. The packer unit (41_packer.md): the row format, one pixel bit, and the commands PK_ROW, PK_PIX and
PK_BITS. -/

namespace Sys2Proof.Machine

/-- Pixel bit `k` of a row, and 0 past the row's end (41_packer.md R74, R81). -/
def rowBit (p : List Bool) (k : Nat) : Bool := p.getD k false

/-- Packed byte `j` of a row: pixel `8j` in bit 7 (41_packer.md R74). -/
def rowByte (p : List Bool) (j : Nat) : Byte :=
  (List.range 8).foldl (fun acc i => acc ||| (BitVec.ofBool (rowBit p (8 * j + i))).setWidth 8 <<< (7 - i)) 0#8

/-- `Row(f, p)`: the filter byte, then the packed bytes (41_packer.md R74). -/
def rowBytes (f : Byte) (p : List Bool) : List Byte :=
  f :: (List.range ((p.length + 7) / 8)).map (rowByte p)

/-- The partial byte with one more pixel bit at its low end (41_packer.md R76). -/
def shiftIn (acc : Byte) (b : Bool) : Byte := (acc <<< 1) ||| (BitVec.ofBool b).setWidth 8

/-- The two units `PushBit` works on: the packer, and the compressor that its bytes enter. -/
abbrev Units := Packer × Compressor

/-- The first half of `PushBit(b)` (41_packer.md R76): the bit enters the partial byte, which enters the compressor when
it holds 8 bits. -/
def pushIntoByte (b : Bool) (u : Units) : Units :=
  let acc := shiftIn u.1.pkAcc b
  if u.1.pkNbits.toNat + 1 = 8 then
    ({ u.1 with pkAcc := 0#8, pkNbits := 0#3, pkX := u.1.pkX + 1 }, u.2.enter acc)
  else
    ({ u.1 with pkAcc := acc, pkNbits := u.1.pkNbits + 1, pkX := u.1.pkX + 1 }, u.2)

/-- The partial byte at the row's end enters the compressor, its unused low bits zero (41_packer.md R76, R81). -/
def flushPartial (u : Units) : Compressor :=
  if u.1.pkNbits.toNat > 0 then u.2.enter (u.1.pkAcc <<< (8 - u.1.pkNbits.toNat)) else u.2

/-- The second half of `PushBit(b)` (41_packer.md R76): when the row's last pixel has been consumed, the partial byte
enters the compressor and the row ends. -/
def endRowIfDone (u : Units) : Units :=
  if u.1.pkX = u.1.pkW then
    ({ u.1 with pkAcc := 0#8, pkNbits := 0#3, pkX := 0#32, pkActive := false, pkRows := u.1.pkRows + 1 },
      flushPartial u)
  else u

/-- `PushBit(b)` on the two units (41_packer.md R76). -/
def packBit (b : Bool) (u : Units) : Units := endRowIfDone (pushIntoByte b u)

/-- `PushBit` of each bit on the two units, in order. -/
def packBits (bs : List Bool) (u : Units) : Units := bs.foldl (fun v b => packBit b v) u

/-- Replace the two units of the packer's work. -/
def State.setUnits (s : State) (u : Units) : State := (s.setPacker u.1).setComp u.2

/-- `PushBit(b)` (41_packer.md R76). -/
def pushBit (b : Bool) (s : State) : State := s.setUnits (packBit b (s.packer, s.comp))

/-- `PushBit` of each bit, in order. -/
def pushBits (bs : List Bool) (s : State) : State := s.setUnits (packBits bs (s.packer, s.comp))

/-- The packed bit of a colour: 0 for the ink, 1 for every other colour, all 32 bits compared (41_packer.md R77). -/
def pixelBit (colour ink : Word) : Bool := !(colour == ink)

/-- The packer at the start of a row of width `w` (41_packer.md R75). -/
def Packer.begin (p : Packer) (w : Word) : Packer :=
  { p with pkActive := true, pkW := w, pkX := 0#32, pkAcc := 0#8, pkNbits := 0#3 }

/-- PK_ROW (41_packer.md R75; the order of the checks, 60_exceptions.md R125). -/
def execPkRow (s : State) : Host.Outcome State Fault Refusal :=
  if !s.comp.cmpOpen then .next (raise .noStream s)
  else if s.packer.pkActive then .next (raise .rowActive s)
  else if s.regs.width = 0#32 then .next (raise .zeroWidth s)
  else .next ((cmpInByte s.regs.filter s).setPacker (s.packer.begin s.regs.width))

/-- PK_PIX (41_packer.md R77). -/
def execPkPix (s : State) : Host.Outcome State Fault Refusal :=
  if !s.packer.pkActive then .next (raise .noRow s)
  else .next (pushBit (pixelBit s.regs.data s.regs.ink) s)

/-- PK_BITS N (41_packer.md R78). -/
def execPkBits (n : BitVec 6) (s : State) : Host.Outcome State Fault Refusal :=
  if badCountN32 n then .next (raise .badCount s)
  else if !s.packer.pkActive then .next (raise .noRow s)
  else if n.toNat > s.packer.pkW.toNat - s.packer.pkX.toNat then .next (raise .rowOverrun s)
  else .next (pushBits (dataBits n.toNat s.regs.data) s)

end Sys2Proof.Machine
end

