-- ==== Sys2Proof/Machine/Dispatch.lean ====
section
/-! DEFINITION. The dispatch of a decoded command to its meaning. -/

namespace Sys2Proof.Machine

def exec (i : Instr) (s : State) : Host.Outcome State Fault Refusal :=
  match i with
  | .nop => Sys2Proof.Machine.execNop s
  | .srst => Sys2Proof.Machine.execSrst s
  | .clrerr => Sys2Proof.Machine.execClrerr s
  | .crcInit => Sys2Proof.Machine.execCrcInit s
  | .crcUpd n => Sys2Proof.Machine.execCrcUpd n s
  | .crcOut => Sys2Proof.Machine.execCrcOut s
  | .pkRow => Sys2Proof.Machine.execPkRow s
  | .pkPix => Sys2Proof.Machine.execPkPix s
  | .pkBits n => Sys2Proof.Machine.execPkBits n s
  | .cmpStart => Sys2Proof.Machine.execCmpStart s
  | .cmpWr n => Sys2Proof.Machine.execCmpWr n s
  | .cmpFinish => Sys2Proof.Machine.execCmpFinish s

end Sys2Proof.Machine
end

