-- ==== Sys2Proof/Machine/Step.lean ====
section
/-! DEFINITION. One step: the host's next access is performed completely (20_memory.md R50). -/

namespace Sys2Proof.Machine

/-- One step of the machine. A command written to CMD is executed whole within the step that takes its write; with no
access pending the machine is idle. -/
def step (s : State) : Host.Outcome State Fault Refusal :=
  match accept s with
  | .run i t => exec i t
  | .done t => .next t
  | .outside => .fault .outsideAperture

/-- `s` with the write of a command word to CMD as the host's next access: the engine fetches nothing, and a command
reaches it only so (10_state.md R18, R22). -/
def State.withFetchWord (s : State) (nbits w : Nat) : State := placeFirst (cmdWrite (commandWord nbits w)) s

end Sys2Proof.Machine
end

