-- ==== Sys2Proof/Machine/HostSide.lean ====
section
/-! DEFINITION. The host's side of the bus: host addresses (20_memory.md R41, R43, R46), the assembly statements
(00_scope.md R11, 30_encoding.md R63) and the pseudo-commands (R64). -/

namespace Sys2Proof.Machine

/-- The offset of a host address, `addr - BASE`, where it lies in the aperture (20_memory.md R46); none where the access
is the platform's (R43). -/
def apertureOffset (addr : Nat) : Option Nat :=
  if Config.base ≤ addr ∧ addr < Config.base + apertureBytes then some (addr - Config.base) else none

/-- `MemRead(addr, width)`: the read joins the engine's accesses if the address is in the aperture (00_scope.md R10). -/
def memRead (addr : Nat) (w : Width) (s : State) : State :=
  match apertureOffset addr with
  | some off => enqueue (.read off w) s
  | none => s

/-- `MemWrite(addr, width, v)`: the write joins the engine's accesses if the address is in the aperture
(00_scope.md R10). -/
def memWrite (addr : Nat) (w : Width) (v : Word) (s : State) : State :=
  match apertureOffset addr with
  | some off => enqueue (.write off w v) s
  | none => s

/-- An assembly statement of the host (30_encoding.md R63). -/
inductive Stmt where
  | wr (r : Reg) (v : Word)
  | rd (r : Reg)
  | rdo (k : Nat)
  | cmd (i : Instr)
deriving DecidableEq, Repr

/-- The bus access a statement stands for (30_encoding.md R63). -/
def stmtEvent : Stmt → Event
  | .wr r v => .write (regOffset r) .w32 v
  | .rd r => .read (regOffset r) .w32
  | .rdo k => .read (windowBase + 4 * k) .w32
  | .cmd i => cmdWrite (encode i)

/-- A pseudo-command of the host (30_encoding.md R64). -/
inductive Pseudo where
  | crcB (v : Word) (n : BitVec 3)
  | cmpB (v : Word) (n : BitVec 3)
  | pkPixC (colour : Word)
  | pkBitsV (v : Word) (n : BitVec 6)
  | setLevel (l : Word)
  | setFilter (f : Word)
  | setWidth (w : Word)
  | setInk (c : Word)
  | chunkCrc (tag : Word)
deriving DecidableEq, Repr

/-- The expansion of a pseudo-command (30_encoding.md R64). -/
def expandPseudo : Pseudo → List Stmt
  | .crcB v n => [.wr .data v, .cmd (.crcUpd n)]
  | .cmpB v n => [.wr .data v, .cmd (.cmpWr n)]
  | .pkPixC c => [.wr .data c, .cmd .pkPix]
  | .pkBitsV v n => [.wr .data v, .cmd (.pkBits n)]
  | .setLevel l => [.wr .level l]
  | .setFilter f => [.wr .filter f]
  | .setWidth w => [.wr .width w]
  | .setInk c => [.wr .ink c]
  | .chunkCrc tag => [.cmd .crcInit, .wr .data tag, .cmd (.crcUpd 4#3)]

/-- The statements' accesses join the engine's accesses, in order. -/
def load (p : List Stmt) (s : State) : State := p.foldl (fun t c => enqueue (stmtEvent c) t) s

end Sys2Proof.Machine
end

