-- ==== Sys2Proof/Machine/HostEncode.lean ====
section
/-! DEFINITION. The host's encode procedure (70_reset_and_hazards.md R147) and the chunk it writes (40_crc.md R72): the
bytes of the container as functions, and the procedure itself, which drives the engine statement by statement and builds its
result from the values the engine's reads return. -/

namespace Sys2Proof.Machine

/-! ### The bytes of the container -/

/-- The four chunk types, as numbers (93_implementation_defined.md GK9). -/
def tagIhdr : Word := 0x49484452#32

def tagPlte : Word := 0x504C5445#32

def tagIdat : Word := 0x49444154#32

def tagIend : Word := 0x49454E44#32

/-- The signature the host writes first (70_reset_and_hazards.md R147, 93_implementation_defined.md GK9). -/
def signature : List Byte := [0x89#8, 0x50#8, 0x4E#8, 0x47#8, 0x0D#8, 0x0A#8, 0x1A#8, 0x0A#8]

/-- The payload of the header chunk: the size, and the host's own `tag` (70_reset_and_hazards.md R147). -/
def headerPayload (w h : Word) (tag : Byte) : List Byte := be32 w ++ be32 h ++ [1#8, tag, 0#8, 0#8, 0#8]

/-- The payload of the palette chunk (70_reset_and_hazards.md R147). -/
def palettePayload : List Byte := [0#8, 0#8, 0#8, 255#8, 255#8, 255#8]

/-- A chunk of type `ty` around a payload, with a CRC given (40_crc.md R72). -/
def chunkWith (ty : Word) (payload : List Byte) (crc : Word) : List Byte :=
  be32 (BitVec.ofNat 32 payload.length) ++ be32 ty ++ payload ++ be32 crc

/-- `Chunk(t, p)` (70_reset_and_hazards.md R147). -/
def chunk (ty : Word) (payload : List Byte) : List Byte := chunkWith ty payload (crc32 (be32 ty ++ payload))

/-- The container of a finished stream `z` for an image of width `w` and height `h` (70_reset_and_hazards.md R147):
signature, header, palette, data and terminator chunks. -/
def container (w h : Word) (tag : Byte) (z : List Byte) : List Byte :=
  signature ++ chunk tagIhdr (headerPayload w h tag) ++ chunk tagPlte palettePayload ++ chunk tagIdat z ++ chunk tagIend []

/-- The result the engine's state stands for: the container of the finished stream, and the empty byte string where CFAIL
is 1 (70_reset_and_hazards.md R147). -/
def hostResult (w h : Word) (tag : Byte) (s : State) : List Byte :=
  if s.out.cfail then [] else container w h tag (outBytes s)

/-! ### The host at the engine -/

/-- The engine performs one statement of the host; none where the step stops, which only a read outside the aperture
makes it do. -/
def hostStep (c : Stmt) (s : State) : Option State :=
  match step (placeFirst (stmtEvent c) s) with
  | .next t => some t
  | .fault _ => none
  | .refused _ => none

/-- The engine performs the host's statements in order. -/
def hostRun : List Stmt → State → Option State
  | [], s => some s
  | c :: p, s => (hostStep c s).bind (hostRun p)

/-- The value a read statement returns to the host, and the state after it (30_encoding.md R63). -/
def hostRead (c : Stmt) (s : State) : Option (Word × State) :=
  (hostStep c s).bind fun t => t.port.readLog.getLast?.map fun v => (v, t)

/-- The statements that run the CRC unit over a byte string: CRC.B of four bytes at a time, then of the rest
(40_crc.md R72; any grouping gives the same CRC, R68). -/
def crcStmts : List Byte → List Stmt
  | [] => []
  | [a] => expandPseudo (.crcB (packWord 0#8 0#8 0#8 a) 1#3)
  | [a, b] => expandPseudo (.crcB (packWord 0#8 0#8 a b) 2#3)
  | [a, b, c] => expandPseudo (.crcB (packWord 0#8 a b c) 3#3)
  | a :: b :: c :: d :: rest => expandPseudo (.crcB (packWord a b c d) 4#3) ++ crcStmts rest

/-- A chunk whose CRC the CRC unit computes: CHUNKCRC of its type, the statements `covers` that run the unit over the payload,
and the read of CRC_VALUE (40_crc.md R72). -/
def hostChunk (ty : Word) (payload : List Byte) (covers : List Stmt) (s : State) : Option (List Byte × State) :=
  (hostRun (expandPseudo (.chunkCrc ty) ++ covers) s).bind fun t =>
    (hostRead (.rd .crcValue) t).map fun r => (chunkWith ty payload r.1, r.2)

/-- The host reads `n` words of the OUT window from word `k` on (RDO). -/
def hostReadWords : Nat → Nat → State → Option (List Word × State)
  | 0, _, s => some ([], s)
  | n + 1, k, s =>
    (hostRead (.rdo k) s).bind fun r => (hostReadWords n (k + 1) r.2).map fun q => (r.1 :: q.1, q.2)

/-- `Z <- out_ram[0 .. OUT_LEN)`, read by RDO: OUT_LEN first, then the words that hold so many bytes, most significant byte
first (70_reset_and_hazards.md R147, 20_memory.md R44). -/
def hostReadOut (s : State) : Option (List Byte × State) :=
  (hostRead (.rd .outLen) s).bind fun r =>
    (hostReadWords ((r.1.toNat + 3) / 4) 0 r.2).map fun q => ((q.1.flatMap be32).take r.1.toNat, q.2)

/-- The rows of an image of width `w` and height `h` (70_reset_and_hazards.md R147). -/
def imageRows (w h : Word) (pixel : Nat → Nat → Word) : List (List Word) :=
  (List.range h.toNat).map fun y => (List.range w.toNat).map fun x => pixel x y

/-- One row: PK_ROW, then each pixel's colour (70_reset_and_hazards.md R147). -/
def rowStmts (pixels : List Word) : List Stmt := .cmd .pkRow :: pixels.flatMap (fun c => [.wr .data c, .cmd .pkPix])

/-- The configuration and the stream, from the write of LEVEL to CMP_FINISH (70_reset_and_hazards.md R147). -/
def encodeStmts (level filter w ink : Word) (rows : List (List Word)) : List Stmt :=
  [.wr .level level, .wr .filter filter, .wr .width w, .wr .ink ink, .cmd .cmpStart] ++ rows.flatMap rowStmts
    ++ [.cmd .cmpFinish]

/-- The end of the procedure once the stream is finished and CFAIL is 0: `head` is the container so far; the finished stream
is read back, its chunk's CRC is computed by CHUNKCRC and CRC_OUT, and the terminator follows
(70_reset_and_hazards.md R147). -/
def hostEmit (head : List Byte) (s : State) : Option (List Byte × State) :=
  (hostReadOut s).bind fun z =>
    (hostChunk tagIdat z.1 [.cmd .crcOut] z.2).bind fun data =>
      (hostChunk tagIend [] [] data.2).map fun fin => (head ++ data.1 ++ fin.1, fin.2)

/-- The host's encode procedure (70_reset_and_hazards.md R147), whole, from any state of the engine: the byte string it
builds, and the state it leaves. CFAIL is bit 3 of the STATUS it reads. -/
def hostEncode (level filter w h ink : Word) (tag : Byte) (pixel : Nat → Nat → Word) (s : State) :
    Option (List Byte × State) :=
  (hostChunk tagIhdr (headerPayload w h tag) (crcStmts (headerPayload w h tag)) s).bind fun header =>
    (hostChunk tagPlte palettePayload (crcStmts palettePayload) header.2).bind fun palette =>
      (hostRun (encodeStmts level filter w ink (imageRows w h pixel)) palette.2).bind fun t =>
        (hostRead (.rd .status) t).bind fun st =>
          if st.1.getLsbD 3 then some ([], st.2) else hostEmit (signature ++ header.1 ++ palette.1) st.2

end Sys2Proof.Machine
end

