-- ==== Sys2Proof/Machine/Inflate.lean ====
section
/-! DEFINITION. `Inflate`, the meaning of the DEFLATE format (43_deflate_format.md R101 to R113): a specification
function, no operation of the engine. The compressor's laws (42_compressor.md R95, R98) are stated through it. A step
that is an error makes the result `none`. -/

namespace Sys2Proof.Machine

/-- The bits of a byte string in the order they are read: bit 0 of each byte first (43_deflate_format.md R101). -/
def bitsOf (d : List Byte) : List Bool := d.flatMap (fun b => (List.range 8).map (fun i => b.getLsbD i))

/-- A fixed-width field of `k` bits, its bit 0 first, and the bits after it (43_deflate_format.md R101). -/
def readField : Nat → List Bool → Option (Nat × List Bool)
  | 0, bs => some (0, bs)
  | _ + 1, [] => none
  | k + 1, b :: bs =>
    match readField k bs with
    | none => none
    | some (v, rest) => some (b.toNat + 2 * v, rest)

/-- One symbol of a Huffman code: its code length and its code, the first bit the most significant
(43_deflate_format.md R101, R108). -/
structure CodeWord where
  sym : Nat
  len : Nat
  code : Nat
deriving DecidableEq, Repr

/-- The longest code (43_deflate_format.md R108). -/
def maxCodeLen : Nat := 15

/-- `bl_count[L]`, the number of symbols of length `L`, and 0 for `L = 0` (43_deflate_format.md R108). -/
def blCount (lens : List Nat) (l : Nat) : Nat := if l = 0 then 0 else lens.count l

/-- The first `next_code[L]`, from `code <- (code + bl_count[L-1]) << 1` (43_deflate_format.md R108). -/
def firstCode (lens : List Nat) : Nat → Nat
  | 0 => 0
  | l + 1 => 2 * (firstCode lens l + blCount lens l)

/-- Assign the codes to the symbols from `sym` on, in increasing order, from the next code of each length
(43_deflate_format.md R108). -/
def assignCodes : List Nat → Nat → List Nat → List CodeWord
  | _, _, [] => []
  | next, sym, l :: lens =>
    if l = 0 then assignCodes next (sym + 1) lens
    else ⟨sym, l, next.getD l 0⟩ :: assignCodes (next.set l (next.getD l 0 + 1)) (sym + 1) lens

/-- The canonical code of a list of code lengths (43_deflate_format.md R108). -/
def buildCode (lens : List Nat) : List CodeWord :=
  assignCodes ((List.range (maxCodeLen + 1)).map (firstCode lens)) 0 lens

/-- Decode one symbol: bits are read until those read are the code of a symbol; `code` and `len` are the bits read so far
(43_deflate_format.md R108). No code is longer than `maxCodeLen`. -/
def decodeSymFrom (cs : List CodeWord) : Nat → Nat → List Bool → Option (Nat × List Bool)
  | _, _, [] => none
  | code, len, b :: bs =>
    match cs.find? (fun c => c.len == len + 1 && c.code == 2 * code + b.toNat) with
    | some c => some (c.sym, bs)
    | none => if len + 1 < maxCodeLen then decodeSymFrom cs (2 * code + b.toNat) (len + 1) bs else none

/-- Decode one symbol of a code (43_deflate_format.md R108). -/
def decodeSym (cs : List CodeWord) (bs : List Bool) : Option (Nat × List Bool) := decodeSymFrom cs 0 0 bs

/-- The sum of `2^(-len)` over the used symbols, times `2^15` (43_deflate_format.md R110). -/
def kraftSum (lens : List Nat) : Nat := (lens.map (fun l => if l = 0 then 0 else 2 ^ (maxCodeLen - l))).sum

/-- The lengths fill the code space exactly (43_deflate_format.md R110). -/
def completeCode (lens : List Nat) : Bool := kraftSum lens == 2 ^ maxCodeLen

/-- A distance code is valid: complete, or one used symbol of length 1, or none used (43_deflate_format.md R110). With no
used symbol no distance can be decoded, so a block with a length symbol fails. -/
def validDistCode (lens : List Nat) : Bool :=
  completeCode lens || (lens.filter (· ≠ 0)) == [1] || (lens.filter (· ≠ 0)) == []

/-- A literal/length code is valid: complete, with the end-of-block symbol used (43_deflate_format.md R110). -/
def validLitCode (lens : List Nat) : Bool := completeCode lens && lens.getD 256 0 != 0

/-- The extra bits and the base of the length symbols 257 to 285 (43_deflate_format.md R105). -/
def lengthTable : List (Nat × Nat) :=
  [(0, 3), (0, 4), (0, 5), (0, 6), (0, 7), (0, 8), (0, 9), (0, 10), (1, 11), (1, 13), (1, 15), (1, 17)] ++
  [(2, 19), (2, 23), (2, 27), (2, 31), (3, 35), (3, 43), (3, 51), (3, 59), (4, 67), (4, 83), (4, 99), (4, 115)] ++
  [(5, 131), (5, 163), (5, 195), (5, 227), (0, 258)]

/-- The extra bits and the base of the distance symbols 0 to 29 (43_deflate_format.md R106). -/
def distTable : List (Nat × Nat) :=
  [(0, 1), (0, 2), (0, 3), (0, 4), (1, 5), (1, 7), (2, 9), (2, 13), (3, 17), (3, 25), (4, 33), (4, 49)] ++
  [(5, 65), (5, 97), (6, 129), (6, 193), (7, 257), (7, 385), (8, 513), (8, 769), (9, 1025), (9, 1537)] ++
  [(10, 2049), (10, 3073), (11, 4097), (11, 6145), (12, 8193), (12, 12289), (13, 16385), (13, 24577)]

/-- The length of a length symbol; symbol 284 with extra value 31 is outside its listed range
(43_deflate_format.md R105, 93_implementation_defined.md I9). -/
def readLength (sym : Nat) (bs : List Bool) : Option (Nat × List Bool) :=
  match lengthTable[sym - 257]? with
  | none => none
  | some (extra, lbase) =>
    match readField extra bs with
    | none => none
    | some (v, rest) => if sym = 284 ∧ v = 31 then none else some (lbase + v, rest)

/-- The greatest distance a stream may use (43_deflate_format.md R111). -/
def deflateWindow : Nat := 32768

/-- The distance that follows a length (43_deflate_format.md R104, R106, R111). -/
def readDist (dist : List CodeWord) (bs : List Bool) : Option (Nat × List Bool) :=
  match decodeSym dist bs with
  | none => none
  | some (dsym, rest) =>
    match distTable[dsym]? with
    | none => none
    | some (extra, dbase) =>
      match readField extra rest with
      | none => none
      | some (v, rest') => if dbase + v ≤ deflateWindow then some (dbase + v, rest') else none

/-- The byte-by-byte copy of `n` bytes from `dist` back (43_deflate_format.md R104). `rout` is the output so far, its
last byte first. -/
def copyBack : Nat → Nat → List Byte → List Byte
  | 0, _, rout => rout
  | n + 1, dist, rout => copyBack n dist (rout.getD (dist - 1) 0#8 :: rout)

/-- The symbols of a compressed block up to its end (43_deflate_format.md R104). Every symbol takes a bit, so `fuel`
above the number of bits is never short. -/
def inflateSymbols (lit dist : List CodeWord) : Nat → List Bool → List Byte → Option (List Byte × List Bool)
  | 0, _, _ => none
  | fuel + 1, bs, rout =>
    match decodeSym lit bs with
    | none => none
    | some (sym, rest) =>
      if sym < 256 then inflateSymbols lit dist fuel rest (BitVec.ofNat 8 sym :: rout)
      else if sym = 256 then some (rout, rest)
      else
        match readLength sym rest with
        | none => none
        | some (n, rest1) =>
          match readDist dist rest1 with
          | none => none
          | some (d, rest2) =>
            if d > rout.length then none else inflateSymbols lit dist fuel rest2 (copyBack n d rout)

/-- The bits up to the next byte boundary are skipped; `bs` are the bits not yet read of a whole number of bytes
(43_deflate_format.md R103). -/
def skipToByte (bs : List Bool) : List Bool := bs.drop (bs.length % 8)

/-- Copy `n` whole bytes to the output (43_deflate_format.md R103). -/
def copyBytes : Nat → List Bool → List Byte → Option (List Byte × List Bool)
  | 0, bs, rout => some (rout, bs)
  | n + 1, bs, rout =>
    match readField 8 bs with
    | none => none
    | some (v, rest) => copyBytes n rest (BitVec.ofNat 8 v :: rout)

/-- A stored block after its header (43_deflate_format.md R103). -/
def inflateStored (bs : List Bool) (rout : List Byte) : Option (List Byte × List Bool) :=
  match readField 16 (skipToByte bs) with
  | none => none
  | some (len, rest) =>
    match readField 16 rest with
    | none => none
    | some (nlen, rest1) => if nlen = Nat.xor len 0xFFFF then copyBytes len rest1 rout else none

/-- The fixed literal/length code lengths (43_deflate_format.md R107). -/
def fixedLitLens : List Nat :=
  List.replicate 144 8 ++ List.replicate 112 9 ++ List.replicate 24 7 ++ List.replicate 8 8

/-- The fixed distance code lengths (43_deflate_format.md R107). -/
def fixedDistLens : List Nat := List.replicate 32 5

/-- The order in which the code-length code lengths are given (43_deflate_format.md R109). -/
def clenOrder : List Nat := [16, 17, 18, 0, 8, 7, 9, 6, 10, 5, 11, 4, 12, 3, 13, 2, 14, 1, 15]

/-- Read the code-length code lengths for the symbols listed, each a field of 3 bits (43_deflate_format.md R109). -/
def readClens : List Nat → List Bool → List Nat → Option (List Nat × List Bool)
  | [], bs, clen => some (clen, bs)
  | sym :: order, bs, clen =>
    match readField 3 bs with
    | none => none
    | some (v, rest) => readClens order rest (clen.set sym v)

/-- What one code-length symbol appends to the lengths so far (last one first), and the bits after its extra bits
(43_deflate_format.md R109). -/
def expandClen (c : Nat) (bs : List Bool) (rlens : List Nat) : Option (List Nat × List Bool) :=
  if c ≤ 15 then some (c :: rlens, bs)
  else if c = 16 then
    match rlens, readField 2 bs with
    | prev :: _, some (v, rest) => some (List.replicate (3 + v) prev ++ rlens, rest)
    | _, _ => none
  else if c = 17 then
    match readField 3 bs with
    | some (v, rest) => some (List.replicate (3 + v) 0 ++ rlens, rest)
    | none => none
  else
    match readField 7 bs with
    | some (v, rest) => some (List.replicate (11 + v) 0 ++ rlens, rest)
    | none => none

/-- Read code lengths as one sequence until there are `total` of them; running past `total` is an error
(43_deflate_format.md R109). Every symbol gives a length, so `fuel` equal to `total` is never short. -/
def readLens (cl : List CodeWord) (total : Nat) : Nat → List Bool → List Nat → Option (List Nat × List Bool)
  | 0, bs, rlens => if rlens.length = total then some (rlens.reverse, bs) else none
  | fuel + 1, bs, rlens =>
    if rlens.length = total then some (rlens.reverse, bs)
    else
      match decodeSym cl bs with
      | none => none
      | some (c, rest) =>
        match expandClen c rest rlens with
        | none => none
        | some (rlens', rest') => if rlens'.length > total then none else readLens cl total fuel rest' rlens'

/-- The code lengths of a dynamic block: literal/length, then distance (43_deflate_format.md R109, R110). -/
def readDynamicLens (bs : List Bool) : Option ((List Nat × List Nat) × List Bool) :=
  match readField 5 bs with
  | none => none
  | some (hlit, bs1) =>
    match readField 5 bs1 with
    | none => none
    | some (hdist, bs2) =>
      match readField 4 bs2 with
      | none => none
      | some (hclen, bs3) =>
        if hlit + 257 > 286 ∨ hdist + 1 > 30 then none
        else
          match readClens (clenOrder.take (hclen + 4)) bs3 (List.replicate 19 0) with
          | none => none
          | some (clen, bs4) =>
            if !completeCode clen then none
            else
              match readLens (buildCode clen) (hlit + 257 + (hdist + 1)) (hlit + 257 + (hdist + 1)) bs4 [] with
              | none => none
              | some (lens, bs5) =>
                let lit := lens.take (hlit + 257)
                let dist := lens.drop (hlit + 257)
                if validLitCode lit && validDistCode dist then some ((lit, dist), bs5) else none

/-- The blocks of a stream up to its final one (43_deflate_format.md R102). Every block takes a bit, so `fuel` above the
number of bits is never short. -/
def inflateBlocks : Nat → List Bool → List Byte → Option (List Byte × List Bool)
  | 0, _, _ => none
  | fuel + 1, bs, rout =>
    match readField 1 bs with
    | none => none
    | some (bfinal, bs1) =>
      match readField 2 bs1 with
      | none => none
      | some (btype, bs2) =>
        let block :=
          if btype = 0 then inflateStored bs2 rout
          else if btype = 1 then
            inflateSymbols (buildCode fixedLitLens) (buildCode fixedDistLens) (bs2.length + 1) bs2 rout
          else if btype = 2 then
            match readDynamicLens bs2 with
            | none => none
            | some ((lit, dist), bs3) =>
              inflateSymbols (buildCode lit) (buildCode dist) (bs3.length + 1) bs3 rout
          else none
        match block with
        | none => none
        | some (rout', rest) => if bfinal = 1 then some (rout', rest) else inflateBlocks fuel rest rout'

/-- `Inflate(d)` (43_deflate_format.md R112): the final block must end in the last byte of `d`, and the bits of that byte
above it must be 0. -/
def inflate (d : List Byte) : Option (List Byte) :=
  match inflateBlocks ((bitsOf d).length + 1) (bitsOf d) [] with
  | none => none
  | some (rout, rest) => if decide (rest.length < 8) && rest.all (· == false) then some rout.reverse else none

/-- `Valid(S, x)`, the check of a whole finished stream (43_deflate_format.md R113). -/
def validStream (z x : List Byte) : Bool :=
  decide (6 ≤ z.length) && z.getD 0 0#8 == 0x78#8 && (z.getD 1 0#8).getLsbD 5 == false
    && ((z.getD 0 0#8).toNat * 256 + (z.getD 1 0#8).toNat) % 31 == 0
    && inflate ((z.drop 2).take (z.length - 6)) == some x
    && z.drop (z.length - 4) == be32 (adler32 x)

/-- The input of 42_compressor.md R99: the packed rows of the 240 by 64 all-background image. -/
def sizeLawInput : List Byte := (List.replicate 64 (0x00#8 :: List.replicate 30 0xFF#8)).flatten

/-- The laws of `DEFLATE_IMPL` (42_compressor.md R98, R99). That the body is a function of the level and the input (law 3)
is its type; that any form of blocks may stand in it (law 4) is that nothing forbids one; the window (law 2) is in
`inflate`, which accepts no greater distance. -/
structure DeflateLaws (impl : BitVec 4 → List Byte → List Byte) : Prop where
  /-- Law 1: at levels 1 to 9 the body inflates to exactly the input. -/
  lossless : ∀ (level : BitVec 4) (x : List Byte), 1 ≤ level.toNat → level.toNat ≤ 9 → inflate (impl level x) = some x
  /-- Law 5: the size bound of the all-background image at level 9. -/
  size : (zlibStreamWith impl 9#4 sizeLawInput).length ≤ 948

end Sys2Proof.Machine
end

