-- ==== Sys2Proof/Safety.lean ====
section
/-! DEFINITION. What claims are stated in: the invariants of every reachable state (10_state.md R21, R39), the launch
premise (70_reset_and_hazards.md R146) and the outcomes of a command sequence. -/

namespace Sys2Proof.Machine

/-- The invariants of the flags (10_state.md R21) and the range of ERRCODE (60_exceptions.md R122). -/
structure FlagInv (s : State) : Prop where
  rowInStream : s.packer.pkActive = true → s.comp.cmpOpen = true
  validClosed : s.out.outValid = true → s.comp.cmpOpen = false
  failInvalid : s.out.cfail = true → s.out.outValid = false
  errIffCode : s.error.err = false ↔ s.error.errCode = 0x00#8
  codeRange : s.error.errCode.toNat ≤ 0x0A

/-- The invariants of the packer (10_state.md R39). That an active row has a pixel left is what makes them inductive: a
row ends at its last pixel (41_packer.md R76). -/
structure PackerInv (p : Packer) : Prop where
  xLeW : p.pkX.toNat ≤ p.pkW.toNat
  pixelLeft : p.pkActive = true → p.pkX.toNat < p.pkW.toNat
  idle : p.pkActive = false → p.pkX = 0#32 ∧ p.pkNbits = 0#3 ∧ p.pkAcc = 0#8
  nbits : p.pkActive = true → p.pkNbits.toNat = p.pkX.toNat % 8
  accBound : p.pkAcc.toNat < 2 ^ p.pkNbits.toNat

/-- The invariants of the compressor's input side (10_state.md R39): the count and the sums are those of the input. -/
structure InputInv (c : Compressor) : Prop where
  count : c.cmpCount = BitVec.ofNat 32 c.cmpIn.length
  sums : (c.adlerA, c.adlerB) = adlerSums c.cmpIn

/-- The invariants of the output side (10_state.md R31, R39), the canonical form of the output RAM among them. -/
structure OutputInv (o : Output) : Prop where
  validLen : o.outValid = true → o.outLen.toNat ≤ Config.outRamBytes
  invalidLen : o.outValid = false → o.outLen = 0#32
  ramForm : o.outRam.wf = true
  ramSize : o.outRam.within Config.outRamBytes = true
  ramHeld : ∀ i, i < o.outLen.toNat → (o.outRam.read i).isSome = true

/-- The legal values of the configuration fields (10_state.md R25, R26) and of the latched level (42_compressor.md
R84). -/
structure ConfigInv (s : State) : Prop where
  level : s.regs.level.toNat ≤ 9
  streamLevel : s.comp.cmpLevel.toNat ≤ 9
  filter : s.regs.filter.toNat ≤ Config.filterLast

/-- The invariants every reachable state has. -/
structure Inv (s : State) : Prop where
  flags : FlagInv s
  packer : PackerInv s.packer
  input : InputInv s.comp
  output : OutputInv s.out
  config : ConfigInv s

/-- A finished stream that is held is the result of the last stream: `ZlibStream` of its level and of its whole input,
byte for byte (42_compressor.md R83, R91). -/
def HoldsResult (s : State) : Prop :=
  s.out.outValid = true →
    s.out.outLen.toNat = (zlibStream s.comp.cmpLevel s.comp.cmpIn).length ∧
    ∀ i, i < s.out.outLen.toNat → s.out.outRam.read i = (zlibStream s.comp.cmpLevel s.comp.cmpIn)[i]?

/-- `CleanEntry`: the engine is in the reset state, whatever accesses are pending (70_reset_and_hazards.md R146). -/
def CleanEntry (s : State) : Prop := s = State.reset.setPort s.port

/-- No command or access has been refused since the record was cleared: the usual premise of a claim
(60_exceptions.md R121, 70_reset_and_hazards.md R144). -/
def NoRefusal (s : State) : Prop := s.error.err = false

/-- A word of the format Z opcode `opc` with a nonzero argument, written to CMD in any state, is refused with RESERVED_ARG
and does nothing else (30_encoding.md R60, 60_exceptions.md R121). -/
def RefusesReservedArg (opc : Byte) : Prop :=
  ∀ (w : Word) (s : State) (rest : List Event), w.extractLsb' 24 8 = opc → w.extractLsb' 0 24 ≠ 0 →
    s.port.pending = .write 0x008 .w32 w :: rest → step s = .next (raise .reservedArg (takeEvent rest s))

/-- A sequence of commands, each with the value written to DATA before it, from a state: the outcome after the last. -/
def runCommands (cs : List (Word × Instr)) (s : State) : Host.Outcome State Fault Refusal :=
  match cs with
  | [] => .next s
  | (v, i) :: rest =>
    match exec i (writeReg .data v s) with
    | .next t => runCommands rest t
    | .fault f => .fault f
    | .refused r => .refused r

/-- The command packs pixels and is legal: PK_PIX, or PK_BITS with a count of 1 to 32. -/
def packsPixels (i : Instr) : Bool :=
  match i with
  | .pkPix => true
  | .pkBits n => (Instr.pkBits n).wellFormed
  | .nop => false
  | .srst => false
  | .clrerr => false
  | .crcInit => false
  | .crcUpd _ => false
  | .crcOut => false
  | .pkRow => false
  | .cmpStart => false
  | .cmpWr _ => false
  | .cmpFinish => false

/-- The pixel bits a command packs, given the value of DATA it reads and the ink (41_packer.md R77, R78). -/
def pixelBits (ink : Word) (c : Word × Instr) : List Bool :=
  match c.2 with
  | .pkPix => [pixelBit c.1 ink]
  | .pkBits n => dataBits n.toNat c.1
  | .nop => []
  | .srst => []
  | .clrerr => []
  | .crcInit => []
  | .crcUpd _ => []
  | .crcOut => []
  | .pkRow => []
  | .cmpStart => []
  | .cmpWr _ => []
  | .cmpFinish => []

end Sys2Proof.Machine
end

