-- ==== Sys2Proof/Certificates/Slice0/Obligations.lean ====
section
/-! DEFINITION. The statements for the provers. Each docstring says which rule of spec/ the statement formalises. -/

open Sys2Proof Sys2Proof.Machine

/-! ### Encoding -/

/-- 30_encoding.md sections 2 and 3: the words that decode are exactly the words of the legal commands, each to its
own command. -/
def Obligations.DecodeEncodeAgree : Prop :=
  ∀ (w : Word) (i : Instr), decode w = .ok i ↔ i.wellFormed = true ∧ encode i = w

/-- 30_encoding.md R60: the decoding steps of every word, in their order, and what a host's write of the word to CMD then
does: a word that fails a step raises its error and nothing else happens, a legal word executes its command. -/
def Obligations.DecodingStepsInOrder : Prop :=
  ∀ w : Word,
    let opc := (w.extractLsb' 24 8).toNat
    let isZ := opc ∈ [0x00, 0x01, 0x02, 0x10, 0x12, 0x20, 0x21, 0x30, 0x32]
    let isN4 := opc ∈ [0x11, 0x31]
    let isN32 := opc = 0x22
    let n4 := w.extractLsb' 0 3
    let n32 := w.extractLsb' 0 6
    (¬ isZ ∧ ¬ isN4 ∧ ¬ isN32 → decode w = .error .illegalOpcode) ∧
    (isZ ∧ w.extractLsb' 0 24 ≠ 0 → decode w = .error .reservedArg) ∧
    (isN4 ∧ w.extractLsb' 3 21 ≠ 0 → decode w = .error .reservedArg) ∧
    (isN32 ∧ w.extractLsb' 6 18 ≠ 0 → decode w = .error .reservedArg) ∧
    (isN4 ∧ w.extractLsb' 3 21 = 0 ∧ (n4.toNat = 0 ∨ n4.toNat > 4) → decode w = .error .badCount) ∧
    (isN32 ∧ w.extractLsb' 6 18 = 0 ∧ (n32.toNat = 0 ∨ n32.toNat > 32) → decode w = .error .badCount) ∧
    (isZ ∧ w.extractLsb' 0 24 = 0 →
      [(0x00, Instr.nop), (0x01, .srst), (0x02, .clrerr), (0x10, .crcInit), (0x12, .crcOut), (0x20, .pkRow),
        (0x21, .pkPix), (0x30, .cmpStart), (0x32, .cmpFinish)].lookup opc = (decode w).toOption) ∧
    (opc = 0x11 ∧ w.extractLsb' 3 21 = 0 ∧ 1 ≤ n4.toNat ∧ n4.toNat ≤ 4 → decode w = .ok (.crcUpd n4)) ∧
    (opc = 0x31 ∧ w.extractLsb' 3 21 = 0 ∧ 1 ≤ n4.toNat ∧ n4.toNat ≤ 4 → decode w = .ok (.cmpWr n4)) ∧
    (isN32 ∧ w.extractLsb' 6 18 = 0 ∧ 1 ≤ n32.toNat ∧ n32.toNat ≤ 32 → decode w = .ok (.pkBits n32)) ∧
    (∀ (s : State) (rest : List Event), s.port.pending = .write 0x008 .w32 w :: rest →
      (∀ e, decode w = .error e → step s = .next (raise e (takeEvent rest s))) ∧
      (∀ i, decode w = .ok i → step s = exec i (takeEvent rest s)))

/-- 30_encoding.md R65: the word examples, and the words of R58 for the commands they leave out. -/
def Obligations.WordExamplesDecode : Prop :=
  decode 0x11000004#32 = .ok (.crcUpd 4#3) ∧ decode 0x11000000#32 = .error .badCount ∧
  decode 0x11000008#32 = .error .reservedArg ∧ decode 0x22000020#32 = .ok (.pkBits 32#6) ∧
  decode 0x22000021#32 = .error .badCount ∧ decode 0x13000000#32 = .error .illegalOpcode ∧
  decode 0x00000001#32 = .error .reservedArg ∧ decode 0x00000000#32 = .ok .nop ∧ decode 0x01000000#32 = .ok .srst ∧
  decode 0x02000000#32 = .ok .clrerr ∧ decode 0x10000000#32 = .ok .crcInit ∧ decode 0x12000000#32 = .ok .crcOut ∧
  decode 0x20000000#32 = .ok .pkRow ∧ decode 0x21000000#32 = .ok .pkPix ∧ decode 0x30000000#32 = .ok .cmpStart ∧
  decode 0x31000003#32 = .ok (.cmpWr 3#3) ∧ decode 0x32000000#32 = .ok .cmpFinish

/-- 30_encoding.md section 2: a word is a command of a row when `w & mask = match` and its count is legal; the rows are
disjoint; a word that matches no row is refused. -/
def Obligations.MatchMaskRowsDecode : Prop :=
  (∀ (w : Word) (i : Instr), decode w = .ok i → w &&& rowMask i = rowMatch i) ∧
  (∀ (w : Word) (i : Instr), w &&& rowMask i = rowMatch i →
    (rowMask i = 0xFFFFFFF8#32 → 1 ≤ (w.extractLsb' 0 3).toNat ∧ (w.extractLsb' 0 3).toNat ≤ 4) →
    (rowMask i = 0xFFFFFFC0#32 → 1 ≤ (w.extractLsb' 0 6).toNat ∧ (w.extractLsb' 0 6).toNat ≤ 32) →
    ∃ j, decode w = .ok j ∧ rowMatch j = rowMatch i) ∧
  (∀ (w : Word) (i j : Instr), w &&& rowMask i = rowMatch i → w &&& rowMask j = rowMatch j →
    rowMatch i = rowMatch j) ∧
  (∀ w : Word, (∀ i : Instr, w &&& rowMask i ≠ rowMatch i) → ∃ e, decode w = .error e)

/-- 30_encoding.md R61: `DataBytes(N)` for each N, the bytes of DATA above the low N ignored, and the example. -/
def Obligations.DataBytesLowBytesFirstHighest : Prop :=
  (∀ (n : Nat) (d : Word), 1 ≤ n → n ≤ 4 → (dataBytes n d).length = n ∧
    ∀ k, k < n → (dataBytes n d)[k]? = some (d.extractLsb' (8 * (n - 1 - k)) 8)) ∧
  (∀ (n : Nat) (d d' : Word), 1 ≤ n → n ≤ 4 → d.toNat % 2 ^ (8 * n) = d'.toNat % 2 ^ (8 * n) →
    dataBytes n d = dataBytes n d') ∧
  (∀ d : Word, dataBytes 4 d = be32 d) ∧
  dataBytes 4 0x49454E44#32 = [0x49#8, 0x45#8, 0x4E#8, 0x44#8] ∧ dataBytes 2 0x49454E44#32 = [0x4E#8, 0x44#8]

/-- 30_encoding.md R62: `DataBits(N)` is the top N bits of DATA, the bits below ignored, and the example. -/
def Obligations.DataBitsTopBitsFirstHighest : Prop :=
  (∀ (n : Nat) (d : Word), 1 ≤ n → n ≤ 32 → (dataBits n d).length = n ∧
    ∀ k, k < n → (dataBits n d)[k]? = some (d.getLsbD (31 - k))) ∧
  (∀ (n : Nat) (d d' : Word), 1 ≤ n → n ≤ 32 → d.toNat / 2 ^ (32 - n) = d'.toNat / 2 ^ (32 - n) →
    dataBits n d = dataBits n d') ∧
  dataBits 3 0xA0000000#32 = [true, false, true]

/-! ### Steps -/

/-- 20_memory.md section 4: a step takes up the host's next access, and where that is an aligned 32-bit write to CMD of a
word that decodes to a command, it executes exactly that command; a word that is no command is refused. The model's own
`withFetchWord` places such a write (log entry 8). -/
def Obligations.StepRunsDecodedCommand : Prop :=
  ∀ (s : State) (rest : List Event) (w : Word),
    s.port.pending = .write 0x008 .w32 w :: rest →
      (∀ i, decode w = .ok i → step s = exec i (takeEvent rest s)) ∧
      (∀ e, decode w = .error e → step s = .next (raise e (takeEvent rest s))) ∧
      (∀ i nbits v, decode (commandWord nbits v) = .ok i →
        step (s.withFetchWord nbits v) = exec i s)

/-- 00_scope.md section 6, 60_exceptions.md section 3: between the host's accesses the engine does no work and holds its
state. That the accesses are a list in the state, empty here, is the model's choice (log entry 8). -/
def Obligations.IdleWithoutAccess : Prop :=
  ∀ s : State, s.port.pending = [] → step s = .next s

/-- 20_memory.md section 1, 70_reset_and_hazards.md section 5: every step answers a next state, but where the next access
lies outside the aperture. The stop there is the model's choice (log entry 10). -/
def Obligations.StepStopsOnlyOutsideAperture : Prop :=
  ∀ s : State,
    (∃ t, step s = .next t) ∨
    (∃ off w rest, s.port.pending = .read off w :: rest ∧ 0x1000 + Config.outRamBytes ≤ off ∧
      step s = .fault .outsideAperture) ∨
    (∃ off w v rest, s.port.pending = .write off w v :: rest ∧ 0x1000 + Config.outRamBytes ≤ off ∧
      step s = .fault .outsideAperture)

/-- 70_reset_and_hazards.md section 5: every command completes, whatever the state; it makes no access of its own and
returns no value. That SRST, which resets the engine, keeps the host's pending accesses and the values it has read is the
model's choice (log entry 20), not the section's. -/
def Obligations.EveryCommandTerminates : Prop :=
  ∀ (i : Instr) (s : State), ∃ t, exec i s = .next t ∧ t.port.pending = s.port.pending ∧
    t.port.readLog = s.port.readLog

/-! ### Control commands -/

/-- 44_control.md R114: NOP, the all-zero word, changes nothing in any state, and a word of its opcode with a nonzero
argument is refused with RESERVED_ARG and does nothing else. -/
def Obligations.NopChangesNothing : Prop :=
  encode .nop = 0x00000000#32 ∧ decode 0x00000000#32 = .ok .nop ∧ (∀ s : State, exec .nop s = .next s) ∧
  RefusesReservedArg 0x00#8

/-- 44_control.md section 1, 10_state.md section 6: SRST in every state gives every state element its reset value and
makes every byte of the output RAM `any value`, which the model holds as a RAM with nothing listed (log entry 7); that the
host's pending accesses and what it has read stay is the model's choice (log entry 20). -/
def Obligations.SrstResult : Prop :=
  ∀ s : State, ∃ t, exec .srst s = .next t ∧
    t.regs = { data := 0#32, level := 0#4, filter := 0#8, width := 0#32, ink := 0xFF000000#32 } ∧
    t.crcAcc = 0xFFFFFFFF#32 ∧
    t.packer = { pkActive := false, pkW := 0#32, pkX := 0#32, pkAcc := 0#8, pkNbits := 0#3, pkRows := 0#32 } ∧
    t.comp = { cmpOpen := false, cmpLevel := 0#4, cmpIn := [], cmpCount := 0#32, adlerA := 1, adlerB := 0 } ∧
    t.out.outValid = false ∧ t.out.outLen = 0#32 ∧ t.out.cfail = false ∧ (∀ a, t.out.outRam.read a = none) ∧
    t.error = { err := false, errCode := 0x00#8 } ∧
    t.port.pending = s.port.pending ∧ t.port.readLog = s.port.readLog ∧
    statusWord t = 0x00000000#32 ∧ crcValue t = 0x00000000#32

/-- 44_control.md R116: CLRERR clears the error record and changes nothing else; with no error recorded it changes nothing.
A word of its opcode with a nonzero argument is refused with RESERVED_ARG: the record is then not cleared, and the new error
is recorded only if none was. -/
def Obligations.ClrerrClearsRecordOnly : Prop :=
  encode .clrerr = 0x02000000#32 ∧ decode 0x02000000#32 = .ok .clrerr ∧
  (∀ s : State, exec .clrerr s = .next { s with error := { err := false, errCode := 0x00#8 } }) ∧
  (∀ s : State, s.error = { err := false, errCode := 0x00#8 } → exec .clrerr s = .next s) ∧
  RefusesReservedArg 0x02#8 ∧
  (∀ s : State, s.error.err = true → raise .reservedArg s = s) ∧
  (∀ s : State, s.error.err = false →
    raise .reservedArg s = { s with error := { err := true, errCode := 0x02#8 } })

/-- 44_control.md section 1: what NOP and CLRERR leave unchanged: everything, every byte of the output RAM among it, but
that CLRERR changes the error record. (SRST leaves nothing of the engine unchanged: see SrstResult.) -/
def Obligations.ControlCommandsFrame : Prop :=
  ∀ (i : Instr) (s t : State), i ∈ [Instr.nop, .clrerr] → exec i s = .next t →
    t.regs = s.regs ∧ t.crcAcc = s.crcAcc ∧ t.packer = s.packer ∧ t.comp = s.comp ∧ t.port = s.port ∧
    t.out.outValid = s.out.outValid ∧ t.out.outLen = s.out.outLen ∧ t.out.cfail = s.out.cfail ∧
    (∀ a, t.out.outRam.read a = s.out.outRam.read a) ∧ (i = .nop → t.error = s.error)

/-! ### The CRC unit -/

/-- 40_crc.md R66: CRC_INIT sets the CRC register to 0xFFFFFFFF in every state and changes nothing else; a second one
equals the first; CRC_VALUE then reads 0; a word of its opcode with a nonzero argument is refused with RESERVED_ARG. -/
def Obligations.CrcInitResult : Prop :=
  encode .crcInit = 0x10000000#32 ∧ decode 0x10000000#32 = .ok .crcInit ∧
  (∀ s : State, exec .crcInit s = .next { s with crcAcc := 0xFFFFFFFF#32 }) ∧
  (∀ s : State, exec .crcInit { s with crcAcc := 0xFFFFFFFF#32 } = exec .crcInit s) ∧
  (∀ s : State, crcValue { s with crcAcc := 0xFFFFFFFF#32 } = 0x00000000#32) ∧
  RefusesReservedArg 0x10#8

/-- 40_crc.md R67: `CrcByte` is the exclusive or with the byte and then 8 single-bit steps, and `CrcBytes` applies it to
the bytes in order. -/
def Obligations.CrcByteBitSerial : Prop :=
  let f : Word → Word := fun c => if c.getLsbD 0 = true then (c >>> 1) ^^^ 0xEDB88320#32 else c >>> 1
  (∀ (c : Word) (b : Byte), crcByte c b = f (f (f (f (f (f (f (f (c ^^^ b.setWidth 32))))))))) ∧
  (∀ c : Word, crcBytes c [] = c) ∧
  (∀ (c : Word) (b : Byte) (bs : List Byte), crcBytes c (b :: bs) = crcBytes (crcByte c b) bs)

/-- 40_crc.md R71: the table form of the byte step, and the table entries given. -/
def Obligations.CrcTableForm : Prop :=
  (∀ (c : Word) (b : Byte), crcByte c b = crcTable ((c ^^^ b.setWidth 32).extractLsb' 0 8) ^^^ (c >>> 8)) ∧
  (∀ n : Byte, crcTable n = crcByte (n.setWidth 32) 0x00#8) ∧
  crcTable 0#8 = 0x00000000#32 ∧ crcTable 1#8 = 0x77073096#32 ∧ crcTable 2#8 = 0xEE0E612C#32 ∧
  crcTable 128#8 = 0xEDB88320#32 ∧ crcTable 255#8 = 0x2D02EF8D#32

/-- 40_crc.md section 2: CRC_UPD with a count of 1 to 4, in every state, updates the CRC register by the operand bytes and
changes nothing else; with any other count it is refused. -/
def Obligations.CrcUpdResult : Prop :=
  ∀ (n : BitVec 3) (s : State),
    (1 ≤ n.toNat ∧ n.toNat ≤ 4 →
      exec (.crcUpd n) s = .next { s with crcAcc := crcBytes s.crcAcc (dataBytes n.toNat s.regs.data) }) ∧
    (n.toNat = 0 ∨ 4 < n.toNat → exec (.crcUpd n) s = .next (raise .badCount s))

/-- 40_crc.md section 2: CRC_OUT with no stream open runs the CRC over the bytes of the finished stream and changes
nothing else; with none held (`out_len` = 0) it changes nothing at all. -/
def Obligations.CrcOutResult : Prop :=
  ∀ s : State, s.comp.cmpOpen = false →
    (∃ t, exec .crcOut s = .next t ∧ t = { s with crcAcc := t.crcAcc } ∧
      ∀ xs : List Byte, xs.length = s.out.outLen.toNat → (∀ i, i < xs.length → s.out.outRam.read i = xs[i]?) →
        t.crcAcc = crcBytes s.crcAcc xs) ∧
    (s.out.outLen = 0#32 → exec .crcOut s = .next s)

/-- 40_crc.md sections 1 and 2: after CRC_INIT and any sequence of CRC_UPD commands, each with its own DATA and count,
CRC_VALUE is the CRC-32 of all the bytes in order; the other units and the error record are untouched. -/
def Obligations.CrcValueAnyGrouping : Prop :=
  ∀ (s : State) (cs : List (Word × BitVec 3)), (∀ c ∈ cs, 1 ≤ c.2.toNat ∧ c.2.toNat ≤ 4) →
    ∃ t u, exec .crcInit s = .next t ∧ runCommands (cs.map (fun c => (c.1, Instr.crcUpd c.2))) t = .next u ∧
      crcValue u = crc32 (cs.flatMap (fun c => dataBytes c.2.toNat c.1)) ∧
      u.packer = s.packer ∧ u.comp = s.comp ∧ u.out = s.out ∧ u.error = s.error ∧ u.port = s.port

/-- 40_crc.md section 2: what the CRC commands leave unchanged: everything but the CRC register, and the error record
where the command is refused. -/
def Obligations.CrcCommandsFrame : Prop :=
  ∀ (i : Instr) (s t : State), (i = .crcInit ∨ i = .crcOut ∨ ∃ n, i = .crcUpd n) → exec i s = .next t →
    t.regs = s.regs ∧ t.packer = s.packer ∧ t.comp = s.comp ∧ t.port = s.port ∧
    t.out.outValid = s.out.outValid ∧ t.out.outLen = s.out.outLen ∧ t.out.cfail = s.out.cfail ∧
    (∀ a, t.out.outRam.read a = s.out.outRam.read a) ∧
    (t.error = s.error ∨ (t.crcAcc = s.crcAcc ∧ ∃ e, t = raise e s))

/-! ### The packer unit -/

/-- 41_packer.md section 2: PK_ROW, with a stream open, no row active and a nonzero WIDTH, enters the filter byte and
begins the row (active, `pk_w` = WIDTH, `pk_x`, `pk_acc` and `pk_nbits` 0); everything else stays. -/
def Obligations.PkRowResult : Prop :=
  ∀ s : State, s.comp.cmpOpen = true → s.packer.pkActive = false → s.regs.width ≠ 0#32 →
    ∃ t, exec .pkRow s = .next t ∧
      t.packer = ⟨true, s.regs.width, 0#32, 0#8, 0#3, s.packer.pkRows⟩ ∧
      t.comp.cmpIn = s.comp.cmpIn ++ [s.regs.filter] ∧ t.comp.cmpCount = s.comp.cmpCount + 1 ∧
      t.comp.adlerA.val = (s.comp.adlerA.val + s.regs.filter.toNat) % 65521 ∧
      t.comp.adlerB.val = (s.comp.adlerB.val + t.comp.adlerA.val) % 65521 ∧
      t.comp.cmpOpen = true ∧ t.comp.cmpLevel = s.comp.cmpLevel ∧
      t.regs = s.regs ∧ t.crcAcc = s.crcAcc ∧ t.out = s.out ∧ t.error = s.error ∧ t.port = s.port

/-- 41_packer.md R76: `PushBit(b)`, whole. The bit joins the partial byte; an 8th bit sends the byte into the compressor;
the row's last pixel sends what is left, zero-padded, and ends the row. -/
def Obligations.PushBitEffect : Prop :=
  ∀ (b : Bool) (s : State),
    let p := s.packer
    let acc : Byte := (p.pkAcc <<< 1) ||| (if b then 1#8 else 0#8)
    let full := p.pkNbits.toNat + 1 = 8
    let last := p.pkX + 1 = p.pkW
    let ended : Packer := { p with pkActive := false, pkX := 0#32, pkAcc := 0#8, pkNbits := 0#3, pkRows := p.pkRows + 1 }
    (¬ full ∧ ¬ last → pushBit b s =
      { s with packer := { p with pkAcc := acc, pkNbits := p.pkNbits + 1, pkX := p.pkX + 1 } }) ∧
    (full ∧ ¬ last → pushBit b s =
      { s with packer := { p with pkAcc := 0#8, pkNbits := 0#3, pkX := p.pkX + 1 }, comp := s.comp.enter acc }) ∧
    (¬ full ∧ last → pushBit b s =
      { s with packer := ended, comp := s.comp.enter (acc <<< (8 - (p.pkNbits.toNat + 1))) }) ∧
    (full ∧ last → pushBit b s = { s with packer := ended, comp := s.comp.enter acc })

/-- 41_packer.md section 2: PK_PIX inside a row packs 0 for a colour equal to INK in all 32 bits and 1 for any other. -/
def Obligations.PkPixResult : Prop :=
  ∀ s : State, s.packer.pkActive = true →
    (s.regs.data = s.regs.ink → exec .pkPix s = .next (pushBit false s)) ∧
    (s.regs.data ≠ s.regs.ink → exec .pkPix s = .next (pushBit true s))

/-- 41_packer.md section 2: PK_BITS inside a row with enough pixels left packs the top N bits of DATA in order; with one
pixel too many it is refused and packs none. -/
def Obligations.PkBitsResult : Prop :=
  ∀ (n : BitVec 6) (s : State), s.packer.pkActive = true → s.packer.pkX.toNat ≤ s.packer.pkW.toNat →
    1 ≤ n.toNat → n.toNat ≤ 32 →
    (s.packer.pkX.toNat + n.toNat ≤ s.packer.pkW.toNat →
      exec (.pkBits n) s = .next ((dataBits n.toNat s.regs.data).foldl (fun t b => pushBit b t) s)) ∧
    (s.packer.pkX.toNat + n.toNat > s.packer.pkW.toNat → exec (.pkBits n) s = .next (raise .rowOverrun s))

/-- 41_packer.md sections 1 and 3: a packed byte holds its 8 pixels most significant bit first, pixel `8j` in bit 7, with
0 bits past the row's end; a row of w pixels has `1 + ceil(w/8)` bytes and begins with the filter byte. -/
def Obligations.RowBytesFormat : Prop :=
  (∀ (p : List Bool) (j i : Nat), i < 8 →
    (rowByte p j).getLsbD (7 - i) = if h : 8 * j + i < p.length then p[8 * j + i] else false) ∧
  (∀ (f : Byte) (p : List Bool), (rowBytes f p).length = 1 + (p.length + 7) / 8 ∧ (rowBytes f p)[0]? = some f ∧
    ∀ j, j < (p.length + 7) / 8 → (rowBytes f p)[j + 1]? = some (rowByte p j))

/-- 41_packer.md section 3: a row begun with filter f and fed its pixels by any mix of PK_PIX and PK_BITS, each with its
own DATA, puts exactly `Row(f, p)` into the compressor input, ends, and is counted; no command of it is refused. -/
def Obligations.RowFedByAnyMixIsRow : Prop :=
  ∀ (s : State) (cs : List (Word × Instr)),
    s.comp.cmpOpen = true → s.packer.pkActive = false → s.regs.width ≠ 0#32 →
    (∀ c ∈ cs, packsPixels c.2 = true) → (cs.flatMap (pixelBits s.regs.ink)).length = s.regs.width.toNat →
    ∃ t u, exec .pkRow s = .next t ∧ runCommands cs t = .next u ∧
      u.comp.cmpIn = s.comp.cmpIn ++ rowBytes s.regs.filter (cs.flatMap (pixelBits s.regs.ink)) ∧
      u.packer.pkActive = false ∧ u.packer.pkX = 0#32 ∧ u.packer.pkRows = s.packer.pkRows + 1 ∧
      u.comp.cmpOpen = true ∧ u.comp.cmpLevel = s.comp.cmpLevel ∧ u.out = s.out ∧ u.crcAcc = s.crcAcc ∧
      u.error = s.error

/-- 41_packer.md section 2: what PK_ROW, PK_PIX and PK_BITS leave unchanged: the host's registers, the CRC, the output
side with every byte of its RAM, the open flag and the level; the compressor's input only grows, and the error record
changes only where the command is refused. -/
def Obligations.PackerCommandsFrame : Prop :=
  ∀ (i : Instr) (s t : State), (i = .pkRow ∨ i = .pkPix ∨ ∃ n, i = .pkBits n) → exec i s = .next t →
    t.regs = s.regs ∧ t.crcAcc = s.crcAcc ∧ t.port = s.port ∧
    t.out.outValid = s.out.outValid ∧ t.out.outLen = s.out.outLen ∧ t.out.cfail = s.out.cfail ∧
    (∀ a, t.out.outRam.read a = s.out.outRam.read a) ∧
    t.comp.cmpOpen = s.comp.cmpOpen ∧ t.comp.cmpLevel = s.comp.cmpLevel ∧ s.comp.cmpIn <+: t.comp.cmpIn ∧
    (i ≠ .pkRow → t.packer.pkW = s.packer.pkW) ∧
    (t.error = s.error ∨ ∃ e, t = raise e s)

/-! ### The compressor unit -/

/-- 42_compressor.md section 2: CMP_START with no stream open opens one at the level of LEVEL, clears the input, the sums,
the counters and the output flags, and leaves the output RAM and everything else. -/
def Obligations.CmpStartResult : Prop :=
  ∀ s : State, s.comp.cmpOpen = false →
    ∃ t, exec .cmpStart s = .next t ∧
      t.comp = { cmpOpen := true, cmpLevel := s.regs.level, cmpIn := [], cmpCount := 0#32, adlerA := 1, adlerB := 0 } ∧
      t.out.outValid = false ∧ t.out.outLen = 0#32 ∧ t.out.cfail = false ∧
      (∀ a, t.out.outRam.read a = s.out.outRam.read a) ∧
      t.packer = { s.packer with pkRows := 0#32 } ∧
      t.regs = s.regs ∧ t.crcAcc = s.crcAcc ∧ t.error = s.error ∧ t.port = s.port

/-- 42_compressor.md section 2: CMP_WR with a count of 1 to 4, a stream open and no row active, enters the operand bytes;
the count and the Adler sums advance by them, and nothing else changes. -/
def Obligations.CmpWrResult : Prop :=
  ∀ (n : BitVec 3) (s : State), 1 ≤ n.toNat → n.toNat ≤ 4 → s.comp.cmpOpen = true → s.packer.pkActive = false →
    ∃ t, exec (.cmpWr n) s = .next t ∧ t = { s with comp := t.comp } ∧
      t.comp.cmpIn = s.comp.cmpIn ++ dataBytes n.toNat s.regs.data ∧
      t.comp.cmpCount = s.comp.cmpCount + BitVec.ofNat 32 n.toNat ∧
      t.comp.cmpOpen = true ∧ t.comp.cmpLevel = s.comp.cmpLevel ∧
      ((s.comp.adlerA, s.comp.adlerB) = adlerSums s.comp.cmpIn →
        (t.comp.adlerA, t.comp.adlerB) = adlerSums t.comp.cmpIn)

/-- 42_compressor.md section 2: CMP_FINISH of a stream whose result fits the output RAM stores it byte for byte from index
0, sets OUT_VALID and OUT_LEN, and closes the stream; every byte of the RAM past the result, and everything else, stays. -/
def Obligations.CmpFinishStoresResult : Prop :=
  ∀ s : State, s.comp.cmpOpen = true → s.packer.pkActive = false →
    (zlibStream s.comp.cmpLevel s.comp.cmpIn).length ≤ Config.outRamBytes →
    ∃ t, exec .cmpFinish s = .next t ∧
      t.out.outLen.toNat = (zlibStream s.comp.cmpLevel s.comp.cmpIn).length ∧
      t.out.outValid = true ∧ t.out.cfail = false ∧
      (∀ a, a < (zlibStream s.comp.cmpLevel s.comp.cmpIn).length →
        t.out.outRam.read a = (zlibStream s.comp.cmpLevel s.comp.cmpIn)[a]?) ∧
      (∀ a, (zlibStream s.comp.cmpLevel s.comp.cmpIn).length ≤ a → t.out.outRam.read a = s.out.outRam.read a) ∧
      t.comp = { s.comp with cmpOpen := false } ∧
      t.packer = s.packer ∧ t.regs = s.regs ∧ t.crcAcc = s.crcAcc ∧ t.error = s.error ∧ t.port = s.port

/-- 42_compressor.md section 2, 60_exceptions.md section 1: CMP_FINISH of a stream whose result does not fit sets CFAIL,
leaves an empty result and closes the stream; it is no error. What the RAM holds is then `any value`, in the model a RAM with
nothing listed (log entry 7). -/
def Obligations.CompressionFailureIsNoError : Prop :=
  ∀ s : State, s.comp.cmpOpen = true → s.packer.pkActive = false →
    Config.outRamBytes < (zlibStream s.comp.cmpLevel s.comp.cmpIn).length →
    ∃ t, exec .cmpFinish s = .next t ∧
      t.out.cfail = true ∧ t.out.outValid = false ∧ t.out.outLen = 0#32 ∧ (∀ a, t.out.outRam.read a = none) ∧
      t.comp = { s.comp with cmpOpen := false } ∧
      t.packer = s.packer ∧ t.regs = s.regs ∧ t.crcAcc = s.crcAcc ∧ t.error = s.error ∧
      t.port.pending = s.port.pending ∧ t.port.readLog = s.port.readLog

/-- 42_compressor.md section 1: the result of a stream depends on its level and its input alone: two engines that differ
in anything else finish with the same flags, the same length and the same bytes. -/
def Obligations.ResultDependsOnLevelAndInput : Prop :=
  ∀ s t : State, s.comp.cmpOpen = true → t.comp.cmpOpen = true → s.packer.pkActive = false →
    t.packer.pkActive = false → s.comp.cmpLevel = t.comp.cmpLevel → s.comp.cmpIn = t.comp.cmpIn →
    ∃ s' t', exec .cmpFinish s = .next s' ∧ exec .cmpFinish t = .next t' ∧
      s'.out.outValid = t'.out.outValid ∧ s'.out.cfail = t'.out.cfail ∧ s'.out.outLen = t'.out.outLen ∧
      ∀ a, a < s'.out.outLen.toNat → s'.out.outRam.read a = t'.out.outRam.read a

/-- 42_compressor.md section 2: what CMP_START, CMP_WR and CMP_FINISH leave unchanged. The host's registers, the CRC, the
pending accesses and the values read always stay; of the packer only CMP_START's row counter changes; CMP_START and CMP_WR
store nothing in the output RAM, and a CMP_FINISH whose result fits stores it from index 0 and no byte past it; CMP_WR and
CMP_FINISH keep the level and what has entered, and CMP_WR keeps the output side and the open flag; the error record
changes only where the command is refused. -/
def Obligations.CompressorCommandsFrame : Prop :=
  ∀ (i : Instr) (s t : State), (i = .cmpStart ∨ i = .cmpFinish ∨ ∃ n, i = .cmpWr n) → exec i s = .next t →
    t.regs = s.regs ∧ t.crcAcc = s.crcAcc ∧ t.port.pending = s.port.pending ∧ t.port.readLog = s.port.readLog ∧
    t.packer = { s.packer with pkRows := t.packer.pkRows } ∧ (i ≠ .cmpStart → t.packer = s.packer) ∧
    (i ≠ .cmpFinish → ∀ a, t.out.outRam.read a = s.out.outRam.read a) ∧
    ((zlibStream s.comp.cmpLevel s.comp.cmpIn).length ≤ Config.outRamBytes →
      ∀ a, (zlibStream s.comp.cmpLevel s.comp.cmpIn).length ≤ a → t.out.outRam.read a = s.out.outRam.read a) ∧
    (i ≠ .cmpStart → t.comp.cmpLevel = s.comp.cmpLevel ∧ s.comp.cmpIn <+: t.comp.cmpIn) ∧
    (i ≠ .cmpStart → i ≠ .cmpFinish → t.out = s.out ∧ t.comp.cmpOpen = s.comp.cmpOpen) ∧
    (t.error = s.error ∨ ∃ e, t = raise e s)

/-! ### The output format -/

/-- 42_compressor.md R97: the stored blocks of level 0, exactly, and their sizes. -/
def Obligations.StoredBlockPartition : Prop :=
  stored [] = [0x01#8, 0x00#8, 0x00#8, 0xFF#8, 0xFF#8] ∧
  (∀ x : List Byte, x ≠ [] →
    let k := (x.length + 65534) / 65535
    stored x = (List.range k).flatMap (fun i =>
      let c := (x.drop (65535 * i)).take 65535
      [if i = k - 1 then 0x01#8 else 0x00#8] ++ le16 (BitVec.ofNat 16 c.length) ++
        le16 (BitVec.ofNat 16 c.length ^^^ 0xFFFF#16) ++ c)) ∧
  (∀ x : List Byte, (stored x).length = x.length + 5 * max 1 ((x.length + 65534) / 65535) ∧
    (zlibStream 0#4 x).length = x.length + 6 + 5 * max 1 ((x.length + 65534) / 65535)) ∧
  stored [0x00#8] = [0x01#8, 0x01#8, 0x00#8, 0xFE#8, 0xFF#8, 0x00#8] ∧
  (∀ x : List Byte, x.length = 1984 → (stored x).take 5 = [0x01#8, 0xC0#8, 0x07#8, 0x3F#8, 0xF8#8] ∧
    (zlibStream 0#4 x).length = 1995)

/-- 42_compressor.md section 3: FLG by level, with FLEVEL in its bits 7:6, and the check of the header. The spec gives FLG for
the levels 0 to 9; the clauses over every 4-bit level take in 10 to 15, where FLG is the model's reading (log entry 14). -/
def Obligations.ZlibHeaderByLevel : Prop :=
  zlibCmf = 0x78#8 ∧
  (∀ l : BitVec 4, l.toNat ≤ 1 → zlibFlg l = 0x01#8) ∧
  (∀ l : BitVec 4, 2 ≤ l.toNat → l.toNat ≤ 5 → zlibFlg l = 0x5E#8) ∧
  (∀ l : BitVec 4, l.toNat = 6 → zlibFlg l = 0x9C#8) ∧
  (∀ l : BitVec 4, 7 ≤ l.toNat → l.toNat ≤ 9 → zlibFlg l = 0xDA#8) ∧
  (0x01#8).extractLsb' 6 2 = 0#2 ∧ (0x5E#8).extractLsb' 6 2 = 1#2 ∧ (0x9C#8).extractLsb' 6 2 = 2#2 ∧
  (0xDA#8).extractLsb' 6 2 = 3#2 ∧
  (∀ l : BitVec 4, (zlibCmf.toNat * 256 + (zlibFlg l).toNat) % 31 = 0) ∧
  (∀ (l : BitVec 4) (x : List Byte), (zlibStream l x).take 2 = [zlibCmf, zlibFlg l])

/-- 42_compressor.md section 1: Adler-32 by its sums: A is 1 plus the sum of the bytes, B weighs byte i of n by `n - i`
and adds n, each modulo 65521; the value is `(B << 16) | A`. -/
def Obligations.AdlerClosedForm : Prop :=
  ∀ xs : List Byte,
    let a := (1 + (xs.map BitVec.toNat).sum) % 65521
    let b := (xs.length + ((List.range xs.length).map (fun i => (xs.length - i) * (xs.getD i 0#8).toNat)).sum) % 65521
    (adlerSums xs).1.val = a ∧ (adlerSums xs).2.val = b ∧ (adler32 xs).toNat = b * 65536 + a

/-- 42_compressor.md section 3, 43_deflate_format.md section 4: with any `DEFLATE_IMPL` that meets the laws, the finished
stream of every level 0 to 9 and every input is a valid zlib stream of that input. -/
def Obligations.FinishedStreamIsValid : Prop :=
  ∀ impl : BitVec 4 → List Byte → List Byte, DeflateLaws impl →
    ∀ (level : BitVec 4) (x : List Byte), level.toNat ≤ 9 → validStream (zlibStreamWith impl level x) x = true

/-- 42_compressor.md section 3: for the 240 by 64 all-background image, with any `DEFLATE_IMPL` that meets the laws, the
level 0 stream has 1995 bytes, the level 9 stream at most 948, so that the sizes differ. -/
def Obligations.BackgroundImageSizes : Prop :=
  ∀ impl : BitVec 4 → List Byte → List Byte, DeflateLaws impl →
    (zlibStreamWith impl 0#4 sizeLawInput).length = 1995 ∧ (zlibStreamWith impl 9#4 sizeLawInput).length ≤ 948 ∧
    (zlibStreamWith impl 0#4 sizeLawInput).length ≠ (zlibStreamWith impl 9#4 sizeLawInput).length

/-- 42_compressor.md section 3, 70_reset_and_hazards.md section 5: the container the host builds around a stream adds 75
bytes; for the 240 by 64 all-background image at level 9 it has fewer than 1024 bytes, begins with the signature, and ends
with the terminator chunk and its fixed CRC. -/
def Obligations.ContainerOfBackgroundImage : Prop :=
  (∀ (w h : Word) (tag : Byte) (z : List Byte), (container w h tag z).length = z.length + 75) ∧
  ∀ impl : BitVec 4 → List Byte → List Byte, DeflateLaws impl → ∀ tag : Byte,
    let out := container 240#32 64#32 tag (zlibStreamWith impl 9#4 sizeLawInput)
    out.length < 1024 ∧ out.take 8 = signature ∧
      out.drop (out.length - 12) = [0x00#8, 0x00#8, 0x00#8, 0x00#8, 0x49#8, 0x45#8, 0x4E#8, 0x44#8, 0xAE#8, 0x42#8, 0x60#8, 0x82#8]

/-- 43_deflate_format.md section 3: the fixed literal/length code as its construction gives it: the codes of the first and
last symbol of each range, and the 5-bit distance codes. -/
def Obligations.FixedHuffmanCodes : Prop :=
  (∀ s, s < 144 → (⟨s, 8, 0x30 + s⟩ : CodeWord) ∈ buildCode fixedLitLens) ∧
  (∀ s, s < 112 → (⟨144 + s, 9, 0x190 + s⟩ : CodeWord) ∈ buildCode fixedLitLens) ∧
  (∀ s, s < 24 → (⟨256 + s, 7, s⟩ : CodeWord) ∈ buildCode fixedLitLens) ∧
  (∀ s, s < 8 → (⟨280 + s, 8, 0xC0 + s⟩ : CodeWord) ∈ buildCode fixedLitLens) ∧
  (∀ s, s < 32 → (⟨s, 5, s⟩ : CodeWord) ∈ buildCode fixedDistLens) ∧
  (buildCode fixedLitLens).length = 288 ∧ (buildCode fixedDistLens).length = 32

/-! ### Errors -/

/-- 60_exceptions.md R121, R123: a refusal records its code if none is recorded and changes nothing else, and a later
command executes the same whatever the record holds. -/
def Obligations.ErrorRecordDoesNotBlock : Prop :=
  (∀ (e : ErrorName) (s : State),
    (s.error.err = false → raise e s = { s with error := { err := true, errCode := errorCode e } }) ∧
    (s.error.err = true → raise e s = s)) ∧
  (∀ (i : Instr) (s : State) (r : ErrorRecord),
    ∃ t t', exec i s = .next t ∧ exec i { s with error := r } = .next t' ∧
      { t' with error := t.error } = t)

/-- 60_exceptions.md R122: the codes of the refusals, none of them 0x00. -/
def Obligations.ErrorCodeTable : Prop :=
  errorCode .illegalOpcode = 0x01#8 ∧ errorCode .reservedArg = 0x02#8 ∧ errorCode .badCount = 0x03#8 ∧
  errorCode .noStream = 0x04#8 ∧ errorCode .streamOpen = 0x05#8 ∧ errorCode .rowActive = 0x06#8 ∧
  errorCode .noRow = 0x07#8 ∧ errorCode .rowOverrun = 0x08#8 ∧ errorCode .zeroWidth = 0x09#8 ∧
  errorCode .access = 0x0A#8

/-- 60_exceptions.md R125: which error a command reports, by its state checks in their order; a bad count comes before
every state check, and the commands with none are never refused. -/
def Obligations.StateChecksInOrder : Prop :=
  ∀ s : State,
    let opened := s.comp.cmpOpen = true
    let active := s.packer.pkActive = true
    (opened → exec .crcOut s = .next (raise .streamOpen s)) ∧
    (¬ opened → exec .pkRow s = .next (raise .noStream s)) ∧
    (opened ∧ active → exec .pkRow s = .next (raise .rowActive s)) ∧
    (opened ∧ ¬ active ∧ s.regs.width = 0#32 → exec .pkRow s = .next (raise .zeroWidth s)) ∧
    (¬ active → exec .pkPix s = .next (raise .noRow s)) ∧
    (∀ n : BitVec 6, n.toNat = 0 ∨ 32 < n.toNat → exec (.pkBits n) s = .next (raise .badCount s)) ∧
    (∀ n : BitVec 6, 1 ≤ n.toNat → n.toNat ≤ 32 → ¬ active → exec (.pkBits n) s = .next (raise .noRow s)) ∧
    (∀ n : BitVec 6, 1 ≤ n.toNat → n.toNat ≤ 32 → active → n.toNat > s.packer.pkW.toNat - s.packer.pkX.toNat →
      exec (.pkBits n) s = .next (raise .rowOverrun s)) ∧
    (opened → exec .cmpStart s = .next (raise .streamOpen s)) ∧
    (∀ n : BitVec 3, n.toNat = 0 ∨ 4 < n.toNat → exec (.cmpWr n) s = .next (raise .badCount s)) ∧
    (∀ n : BitVec 3, 1 ≤ n.toNat → n.toNat ≤ 4 → ¬ opened → exec (.cmpWr n) s = .next (raise .noStream s)) ∧
    (∀ n : BitVec 3, 1 ≤ n.toNat → n.toNat ≤ 4 → opened ∧ active → exec (.cmpWr n) s = .next (raise .rowActive s)) ∧
    (¬ opened → exec .cmpFinish s = .next (raise .noStream s)) ∧
    (opened ∧ active → exec .cmpFinish s = .next (raise .rowActive s)) ∧
    (∀ n : BitVec 3, n.toNat = 0 ∨ 4 < n.toNat → exec (.crcUpd n) s = .next (raise .badCount s)) ∧
    (∃ t u v w, exec .nop s = .next t ∧ t.error = s.error ∧ exec .srst s = .next u ∧ u.error.err = false ∧
      exec .clrerr s = .next v ∧ v.error.err = false ∧ exec .crcInit s = .next w ∧ w.error = s.error)

/-- 10_state.md section 4, 60_exceptions.md section 1: a recorded error is kept, code and all, by every step but a reset,
an SRST or a CLRERR. -/
def Obligations.ErrorRecordIsSticky : Prop :=
  ∀ s t : State, step s = .next t → s.error.err = true →
    t.error = s.error ∨
    ∃ rest, s.port.pending = .powerOnReset :: rest ∨ s.port.pending = .write 0x008 .w32 0x01000000#32 :: rest ∨
      s.port.pending = .write 0x008 .w32 0x02000000#32 :: rest

/-! ### The bus -/

/-- 20_memory.md section 4: an aligned 32-bit read in the aperture returns one value and changes no state of the engine;
only the model's draw of free values may advance (log entry 6). -/
def Obligations.ReadHasNoSideEffect : Prop :=
  ∀ (s : State) (off : Nat) (rest : List Event), s.port.pending = .read off .w32 :: rest → off % 4 = 0 →
    off < 0x1000 + Config.outRamBytes →
    ∃ t v, step s = .next t ∧ t.port.readLog = s.port.readLog ++ [v] ∧ t.port.pending = rest ∧
      t.regs = s.regs ∧ t.crcAcc = s.crcAcc ∧ t.packer = s.packer ∧ t.comp = s.comp ∧ t.out = s.out ∧
      t.error = s.error ∧ (off < 0x1000 → t.port.draw = s.port.draw)

/-- 20_memory.md section 2, 60_exceptions.md section 1: an access in the aperture that is not an aligned 32-bit access is an
ACCESS error: a write has no other effect, and a read returns 0 and has no other effect. An access is judged by its offset
alone, so one that begins in the aperture and reaches past its end is among them: the model's reading (log entry 18). -/
def Obligations.AccessErrorEffect : Prop :=
  ∀ (s : State) (off : Nat) (w : Width) (rest : List Event), off < 0x1000 + Config.outRamBytes →
    (w ≠ .w32 ∨ off % 4 ≠ 0) →
    (∀ v, s.port.pending = .write off w v :: rest → step s = .next (raise .access (takeEvent rest s))) ∧
    (s.port.pending = .read off w :: rest →
      step s = .next (returnValue 0x00000000#32 (raise .access (takeEvent rest s)))) ∧
    errorCode .access = 0x0A#8

/-- 44_control.md R117, with 10_state.md R25 and R26: what an aligned 32-bit write does at each offset of the aperture. -/
def Obligations.RegisterWriteEffect : Prop :=
  ∀ (s : State) (off : Nat) (v : Word) (rest : List Event), s.port.pending = .write off .w32 v :: rest → off % 4 = 0 →
    off < 0x1000 + Config.outRamBytes →
    let s1 := takeEvent rest s
    (off = 0x008 → (∀ i, decode v = .ok i → step s = exec i s1) ∧
      (∀ e, decode v = .error e → step s = .next (raise e s1))) ∧
    (off = 0x00C → step s = .next { s1 with regs := { s1.regs with data := v } }) ∧
    (off = 0x010 ∧ v.toNat ≤ 9 → step s = .next { s1 with regs := { s1.regs with level := v.setWidth 4 } }) ∧
    (off = 0x010 ∧ 9 < v.toNat → step s = .next s1) ∧
    (off = 0x014 ∧ v.toNat ≤ Config.filterLast →
      step s = .next { s1 with regs := { s1.regs with filter := v.setWidth 8 } }) ∧
    (off = 0x014 ∧ Config.filterLast < v.toNat →
      step s = .next { s1 with regs := { s1.regs with filter := 0x00#8 } }) ∧
    (off = 0x018 → step s = .next { s1 with regs := { s1.regs with width := v } }) ∧
    (off = 0x01C → step s = .next { s1 with regs := { s1.regs with ink := v } }) ∧
    (off ∉ [0x008, 0x00C, 0x010, 0x014, 0x018, 0x01C] → step s = .next s1)

/-- 44_control.md section 2, 10_state.md sections 2.1 to 2.5: the value an aligned 32-bit read of each register returns. -/
def Obligations.RegisterReadValues : Prop :=
  ∀ (s : State) (off : Nat) (rest : List Event), s.port.pending = .read off .w32 :: rest →
    let returns := fun v : Word => step s = .next (returnValue v (takeEvent rest s))
    (off = 0x000 → returns 0x43445001#32) ∧ (off = 0x004 → returns (statusWord s)) ∧
    (off = 0x008 → returns 0x00000000#32) ∧ (off = 0x00C → returns s.regs.data) ∧
    (off = 0x010 → returns (s.regs.level.setWidth 32)) ∧ (off = 0x014 → returns (s.regs.filter.setWidth 32)) ∧
    (off = 0x018 → returns s.regs.width) ∧ (off = 0x01C → returns s.regs.ink) ∧
    (off = 0x020 → returns (s.crcAcc ^^^ 0xFFFFFFFF#32)) ∧ (off = 0x024 → returns s.packer.pkX) ∧
    (off = 0x028 → returns s.packer.pkRows) ∧ (off = 0x02C → returns s.comp.cmpCount) ∧
    (off = 0x030 → returns s.out.outLen) ∧
    (off = 0x034 → returns (BitVec.ofNat 32 (s.comp.adlerB.val * 65536 + s.comp.adlerA.val)))

/-- 10_state.md section 2.1: every field of STATUS at its place, and the reserved bits 0. -/
def Obligations.StatusFields : Prop :=
  ∀ s : State,
    (statusWord s).getLsbD 0 = s.comp.cmpOpen ∧ (statusWord s).getLsbD 1 = s.packer.pkActive ∧
    (statusWord s).getLsbD 2 = s.out.outValid ∧ (statusWord s).getLsbD 3 = s.out.cfail ∧
    (statusWord s).getLsbD 4 = s.error.err ∧ (statusWord s).extractLsb' 5 3 = 0#3 ∧
    (statusWord s).extractLsb' 8 8 = s.error.errCode ∧ (statusWord s).extractLsb' 16 4 = s.comp.cmpLevel ∧
    (statusWord s).extractLsb' 20 12 = 0#12

/-- 20_memory.md section 1: the OUT window is packed big-endian: byte i of a held stream is in word `i / 4` at bits
`31 - 8*(i mod 4)` down to `24 - 8*(i mod 4)` of the value an aligned read returns. -/
def Obligations.OutWindowIsBigEndian : Prop :=
  ∀ (s : State) (i : Nat) (b : Byte) (rest : List Event),
    s.port.pending = .read (0x1000 + 4 * (i / 4)) .w32 :: rest → s.out.outValid = true →
    i < s.out.outLen.toNat → s.out.outLen.toNat ≤ Config.outRamBytes → s.out.outRam.read i = some b →
    ∃ t v, step s = .next t ∧ t.port.readLog = s.port.readLog ++ [v] ∧ v.extractLsb' (24 - 8 * (i % 4)) 8 = b

/-- 20_memory.md R42: at the reserved offsets an aligned 32-bit read returns 0 and an aligned 32-bit write is ignored;
neither is an error. -/
def Obligations.ReservedOffsetsReadZeroIgnoreWrites : Prop :=
  ∀ (s : State) (off : Nat) (rest : List Event), 0x038 ≤ off → off ≤ 0xFFC → off % 4 = 0 →
    (s.port.pending = .read off .w32 :: rest → step s = .next (returnValue 0x00000000#32 (takeEvent rest s))) ∧
    (∀ v, s.port.pending = .write off .w32 v :: rest → step s = .next (takeEvent rest s))

/-- 20_memory.md section 2: a host address in the aperture reaches the engine at the offset `addr - BASE`, and an address
outside it does not reach the engine. -/
def Obligations.HostAddressDecode : Prop :=
  ∀ (addr : Nat) (w : Width) (v : Word) (s : State),
    (Config.base ≤ addr ∧ addr < Config.base + 0x1000 + Config.outRamBytes →
      (memRead addr w s).port.pending = s.port.pending ++ [.read (addr - Config.base) w] ∧
      (memWrite addr w v s).port.pending = s.port.pending ++ [.write (addr - Config.base) w v]) ∧
    (addr < Config.base ∨ Config.base + 0x1000 + Config.outRamBytes ≤ addr →
      memRead addr w s = s ∧ memWrite addr w v s = s)

/-! ### Reset -/

/-- 70_reset_and_hazards.md section 1: power-on reset in every state gives every state element the value of 10_state.md R38,
has the effect of SRST, and leaves the registers reading as the rule says. Every byte of the output RAM is then `any value`;
that the model holds this as a RAM with nothing listed, here and in `CleanEntry`, is its choice (log entries 5 and 7). -/
def Obligations.PowerOnResetState : Prop :=
  ∀ (s : State) (rest : List Event), s.port.pending = .powerOnReset :: rest →
    step s = exec .srst (takeEvent rest s) ∧
    ∃ t, step s = .next t ∧ CleanEntry t ∧ (∀ a, t.out.outRam.read a = none) ∧
      readReg t .id = 0x43445001#32 ∧ readReg t .adlerValue = 0x00000001#32 ∧ readReg t .ink = 0xFF000000#32 ∧
      ∀ r : Reg, r ∉ [Reg.id, .adlerValue, .ink] → readReg t r = 0x00000000#32

/-! ### Invariants -/

/-- 10_state.md sections 2.1 and 6: the invariants hold right after reset. -/
def Obligations.ResetMeetsInvariants : Prop :=
  Inv State.reset ∧ HoldsResult State.reset

/-- 10_state.md sections 2.1 and 6: every step keeps the invariants of the flags, the packer, the compressor's input, the
output side with the canonical form of its RAM, and the configuration. -/
def Obligations.StepKeepsInvariants : Prop :=
  ∀ s t : State, Inv s → step s = .next t → Inv t

/-- 42_compressor.md sections 1 and 2: every step keeps that a held output is, byte for byte, the result of the last
stream's level and whole input. -/
def Obligations.StepKeepsHeldResult : Prop :=
  ∀ s t : State, Inv s → HoldsResult s → step s = .next t → HoldsResult t

/-! ### Whole-machine rules -/

/-- 70_reset_and_hazards.md section 4 (latch points): LEVEL is read by CMP_START alone, FILTER and WIDTH by PK_ROW alone,
INK by PK_PIX alone: under every other command a change of the register changes nothing but the register. SRST, which
writes all of them, is the one command left out. -/
def Obligations.ConfigurationLatchPoints : Prop :=
  ∀ (i : Instr) (s : State), i ≠ .srst →
    (∀ l, i ≠ .cmpStart → ∃ t, exec i s = .next t ∧
      exec i { s with regs := { s.regs with level := l } } = .next { t with regs := { s.regs with level := l } }) ∧
    (∀ f w, i ≠ .pkRow → ∃ t, exec i s = .next t ∧
      exec i { s with regs := { s.regs with filter := f, width := w } } =
        .next { t with regs := { s.regs with filter := f, width := w } }) ∧
    (∀ c, i ≠ .pkPix → ∃ t, exec i s = .next t ∧
      exec i { s with regs := { s.regs with ink := c } } = .next { t with regs := { s.regs with ink := c } })

/-- 10_state.md section 4: which commands change a flag, SRST apart, which resets all of them. CMP_OPEN, ROW_ACTIVE, OUT_VALID
and CFAIL change only under the commands named for them, and in the direction named (CMP_FINISH changes the last two in
either, by its success or failure). ERR is cleared only by CLRERR, and set only where the command is refused. -/
def Obligations.FlagsChangeOnlyAsListed : Prop :=
  ∀ (i : Instr) (s t : State), exec i s = .next t → i ≠ .srst →
    (t.comp.cmpOpen ≠ s.comp.cmpOpen →
      (i = .cmpStart ∧ t.comp.cmpOpen = true) ∨ (i = .cmpFinish ∧ t.comp.cmpOpen = false)) ∧
    (t.packer.pkActive ≠ s.packer.pkActive →
      (i = .pkRow ∧ t.packer.pkActive = true) ∨
      ((i = .pkPix ∨ ∃ n, i = .pkBits n) ∧ t.packer.pkActive = false)) ∧
    (t.out.outValid ≠ s.out.outValid →
      i = .cmpFinish ∨ (i = .cmpStart ∧ t.out.outValid = false)) ∧
    (t.out.cfail ≠ s.out.cfail → i = .cmpFinish ∨ (i = .cmpStart ∧ t.out.cfail = false)) ∧
    (t.error.err ≠ s.error.err →
      (i = .clrerr ∧ t.error.err = false) ∨ (t.error.err = true ∧ ∃ e, t = raise e s))

/-! ### The host's procedure -/

/-- 70_reset_and_hazards.md section 5: the host's encode procedure, run on the engine from any state with no stream open and
no row active, at a level 0 to 9 and a nonzero width. The byte string it builds from the values the engine returns is the
container of the finished stream of the image's packed rows, where that stream fits the output RAM, and the empty byte
string where it does not; one row is counted for each row of the image, the error record stays as it was, and so do the
accesses still pending. How the host groups the bytes it sends and in what order it reads is the model's choice (log entry 21). -/
def Obligations.HostEncodeYieldsContainer : Prop :=
  ∀ (s : State) (level filter w h ink : Word) (tag : Byte) (pixel : Nat → Nat → Word),
    s.comp.cmpOpen = false → s.packer.pkActive = false → level.toNat ≤ 9 → w ≠ 0#32 →
    let f := if filter.toNat ≤ Config.filterLast then filter.setWidth 8 else 0x00#8
    let x := (imageRows w h pixel).flatMap (fun row => rowBytes f (row.map (fun c => pixelBit c ink)))
    let z := zlibStream (level.setWidth 4) x
    ∃ out t, hostEncode level filter w h ink tag pixel s = some (out, t) ∧ out = hostResult w h tag t ∧
      (z.length ≤ Config.outRamBytes → out = container w h tag z) ∧
      (Config.outRamBytes < z.length → out = []) ∧
      t.packer.pkRows = h ∧ t.error = s.error ∧ t.port.pending = s.port.pending
end

