-- ==== Sys2Proof/Laws/Decode.lean ====
section
/-! SUPPORT. What decoding does with a word whose opcode is in the map, format by format (30_encoding.md R60), and where
the fields of a command word stand (R57). -/

namespace Sys2Proof

theorem fieldOpc_eq (w : Word) : fieldOpc w = w.extractLsb' 24 8 := rfl

theorem fieldRsvZ_eq (w : Word) : fieldRsvZ w = w.extractLsb' 0 24 := rfl

theorem fieldRsvN4_eq (w : Word) : fieldRsvN4 w = w.extractLsb' 3 21 := rfl

theorem fieldN4_eq (w : Word) : fieldN4 w = w.extractLsb' 0 3 := rfl

theorem fieldRsvN32_eq (w : Word) : fieldRsvN32 w = w.extractLsb' 6 18 := rfl

theorem fieldN32_eq (w : Word) : fieldN32 w = w.extractLsb' 0 6 := rfl

theorem badCountN4_iff (n : BitVec 3) : badCountN4 n = true ↔ n.toNat = 0 ∨ 4 < n.toNat := by simp [badCountN4]

theorem badCountN32_iff (n : BitVec 6) : badCountN32 n = true ↔ n.toNat = 0 ∨ 32 < n.toNat := by simp [badCountN32]

theorem countN4Ok_iff (n : BitVec 3) : countN4Ok n = true ↔ 1 ≤ n.toNat ∧ n.toNat ≤ 4 := by simp [countN4Ok]

theorem countN32Ok_iff (n : BitVec 6) : countN32Ok n = true ↔ 1 ≤ n.toNat ∧ n.toNat ≤ 32 := by simp [countN32Ok]

/-- A word whose opcode is not in the map. -/
theorem decode_of_illegal {w : Word} (h : opcodeRow (fieldOpc w) = none) : decode w = .error .illegalOpcode := by
  unfold decode; rw [h]

/-- A word of format Z. -/
theorem decode_of_z {w : Word} {i : Instr} (h : opcodeRow (fieldOpc w) = some (.z i)) :
    decode w = if fieldRsvZ w ≠ 0 then .error .reservedArg else .ok i := by
  unfold decode; rw [h]

/-- A word of format N4. -/
theorem decode_of_n4 {w : Word} {mk : BitVec 3 → Instr} (h : opcodeRow (fieldOpc w) = some (.n4 mk)) :
    decode w = if fieldRsvN4 w ≠ 0 then .error .reservedArg
      else if badCountN4 (fieldN4 w) then .error .badCount else .ok (mk (fieldN4 w)) := by
  unfold decode; rw [h]

/-- A word of format N32. -/
theorem decode_of_n32 {w : Word} {mk : BitVec 6 → Instr} (h : opcodeRow (fieldOpc w) = some (.n32 mk)) :
    decode w = if fieldRsvN32 w ≠ 0 then .error .reservedArg
      else if badCountN32 (fieldN32 w) then .error .badCount else .ok (mk (fieldN32 w)) := by
  unfold decode; rw [h]

end Sys2Proof
end

