-- ==== Sys2Proof/Laws/State.lean ====
section
/-! SUPPORT. What each update of the state does to each of its parts. -/

namespace Sys2Proof.Machine

section
variable (s : State) (v : Registers)

@[simp] theorem setRegs_regs : (s.setRegs v).regs = v := rfl
@[simp] theorem setRegs_crcAcc : (s.setRegs v).crcAcc = s.crcAcc := rfl
@[simp] theorem setRegs_packer : (s.setRegs v).packer = s.packer := rfl
@[simp] theorem setRegs_comp : (s.setRegs v).comp = s.comp := rfl
@[simp] theorem setRegs_out : (s.setRegs v).out = s.out := rfl
@[simp] theorem setRegs_error : (s.setRegs v).error = s.error := rfl
@[simp] theorem setRegs_port : (s.setRegs v).port = s.port := rfl

end

section
variable (s : State) (v : Word)

@[simp] theorem setCrc_regs : (s.setCrc v).regs = s.regs := rfl
@[simp] theorem setCrc_crcAcc : (s.setCrc v).crcAcc = v := rfl
@[simp] theorem setCrc_packer : (s.setCrc v).packer = s.packer := rfl
@[simp] theorem setCrc_comp : (s.setCrc v).comp = s.comp := rfl
@[simp] theorem setCrc_out : (s.setCrc v).out = s.out := rfl
@[simp] theorem setCrc_error : (s.setCrc v).error = s.error := rfl
@[simp] theorem setCrc_port : (s.setCrc v).port = s.port := rfl

end

section
variable (s : State) (v : Packer)

@[simp] theorem setPacker_regs : (s.setPacker v).regs = s.regs := rfl
@[simp] theorem setPacker_crcAcc : (s.setPacker v).crcAcc = s.crcAcc := rfl
@[simp] theorem setPacker_packer : (s.setPacker v).packer = v := rfl
@[simp] theorem setPacker_comp : (s.setPacker v).comp = s.comp := rfl
@[simp] theorem setPacker_out : (s.setPacker v).out = s.out := rfl
@[simp] theorem setPacker_error : (s.setPacker v).error = s.error := rfl
@[simp] theorem setPacker_port : (s.setPacker v).port = s.port := rfl

end

section
variable (s : State) (v : Compressor)

@[simp] theorem setComp_regs : (s.setComp v).regs = s.regs := rfl
@[simp] theorem setComp_crcAcc : (s.setComp v).crcAcc = s.crcAcc := rfl
@[simp] theorem setComp_packer : (s.setComp v).packer = s.packer := rfl
@[simp] theorem setComp_comp : (s.setComp v).comp = v := rfl
@[simp] theorem setComp_out : (s.setComp v).out = s.out := rfl
@[simp] theorem setComp_error : (s.setComp v).error = s.error := rfl
@[simp] theorem setComp_port : (s.setComp v).port = s.port := rfl

end

section
variable (s : State) (v : Output)

@[simp] theorem setOut_regs : (s.setOut v).regs = s.regs := rfl
@[simp] theorem setOut_crcAcc : (s.setOut v).crcAcc = s.crcAcc := rfl
@[simp] theorem setOut_packer : (s.setOut v).packer = s.packer := rfl
@[simp] theorem setOut_comp : (s.setOut v).comp = s.comp := rfl
@[simp] theorem setOut_out : (s.setOut v).out = v := rfl
@[simp] theorem setOut_error : (s.setOut v).error = s.error := rfl
@[simp] theorem setOut_port : (s.setOut v).port = s.port := rfl

end

section
variable (s : State) (v : ErrorRecord)

@[simp] theorem setError_regs : (s.setError v).regs = s.regs := rfl
@[simp] theorem setError_crcAcc : (s.setError v).crcAcc = s.crcAcc := rfl
@[simp] theorem setError_packer : (s.setError v).packer = s.packer := rfl
@[simp] theorem setError_comp : (s.setError v).comp = s.comp := rfl
@[simp] theorem setError_out : (s.setError v).out = s.out := rfl
@[simp] theorem setError_error : (s.setError v).error = v := rfl
@[simp] theorem setError_port : (s.setError v).port = s.port := rfl

end

section
variable (s : State) (v : Port)

@[simp] theorem setPort_regs : (s.setPort v).regs = s.regs := rfl
@[simp] theorem setPort_crcAcc : (s.setPort v).crcAcc = s.crcAcc := rfl
@[simp] theorem setPort_packer : (s.setPort v).packer = s.packer := rfl
@[simp] theorem setPort_comp : (s.setPort v).comp = s.comp := rfl
@[simp] theorem setPort_out : (s.setPort v).out = s.out := rfl
@[simp] theorem setPort_error : (s.setPort v).error = s.error := rfl
@[simp] theorem setPort_port : (s.setPort v).port = v := rfl

end

section
variable (s : State)

@[simp] theorem nextDraw_regs : (nextDraw s).regs = s.regs := rfl
@[simp] theorem nextDraw_crcAcc : (nextDraw s).crcAcc = s.crcAcc := rfl
@[simp] theorem nextDraw_packer : (nextDraw s).packer = s.packer := rfl
@[simp] theorem nextDraw_comp : (nextDraw s).comp = s.comp := rfl
@[simp] theorem nextDraw_out : (nextDraw s).out = s.out := rfl
@[simp] theorem nextDraw_error : (nextDraw s).error = s.error := rfl
@[simp] theorem nextDraw_port : (nextDraw s).port = { s.port with draw := s.port.draw + 1 } := rfl

end

section
variable (s : State) (v : Word)

@[simp] theorem returnValue_regs : (returnValue v s).regs = s.regs := rfl
@[simp] theorem returnValue_crcAcc : (returnValue v s).crcAcc = s.crcAcc := rfl
@[simp] theorem returnValue_packer : (returnValue v s).packer = s.packer := rfl
@[simp] theorem returnValue_comp : (returnValue v s).comp = s.comp := rfl
@[simp] theorem returnValue_out : (returnValue v s).out = s.out := rfl
@[simp] theorem returnValue_error : (returnValue v s).error = s.error := rfl
@[simp] theorem returnValue_port : (returnValue v s).port = { s.port with readLog := s.port.readLog ++ [v] } := rfl

end

section
variable (s : State) (rest : List Event)

@[simp] theorem takeEvent_regs : (takeEvent rest s).regs = s.regs := rfl
@[simp] theorem takeEvent_crcAcc : (takeEvent rest s).crcAcc = s.crcAcc := rfl
@[simp] theorem takeEvent_packer : (takeEvent rest s).packer = s.packer := rfl
@[simp] theorem takeEvent_comp : (takeEvent rest s).comp = s.comp := rfl
@[simp] theorem takeEvent_out : (takeEvent rest s).out = s.out := rfl
@[simp] theorem takeEvent_error : (takeEvent rest s).error = s.error := rfl
@[simp] theorem takeEvent_port : (takeEvent rest s).port = { s.port with pending := rest } := rfl

end

section
variable (s : State) (e : Event)

@[simp] theorem placeFirst_regs : (placeFirst e s).regs = s.regs := rfl
@[simp] theorem placeFirst_crcAcc : (placeFirst e s).crcAcc = s.crcAcc := rfl
@[simp] theorem placeFirst_packer : (placeFirst e s).packer = s.packer := rfl
@[simp] theorem placeFirst_comp : (placeFirst e s).comp = s.comp := rfl
@[simp] theorem placeFirst_out : (placeFirst e s).out = s.out := rfl
@[simp] theorem placeFirst_error : (placeFirst e s).error = s.error := rfl
@[simp] theorem placeFirst_port : (placeFirst e s).port = { s.port with pending := e :: s.port.pending } := rfl

end

section
variable (s : State) (e : Event)

@[simp] theorem enqueue_regs : (enqueue e s).regs = s.regs := rfl
@[simp] theorem enqueue_crcAcc : (enqueue e s).crcAcc = s.crcAcc := rfl
@[simp] theorem enqueue_packer : (enqueue e s).packer = s.packer := rfl
@[simp] theorem enqueue_comp : (enqueue e s).comp = s.comp := rfl
@[simp] theorem enqueue_out : (enqueue e s).out = s.out := rfl
@[simp] theorem enqueue_error : (enqueue e s).error = s.error := rfl
@[simp] theorem enqueue_port : (enqueue e s).port = { s.port with pending := s.port.pending ++ [e] } := rfl

end

section
variable (s : State)

@[simp] theorem clearError_regs : (clearError s).regs = s.regs := rfl
@[simp] theorem clearError_crcAcc : (clearError s).crcAcc = s.crcAcc := rfl
@[simp] theorem clearError_packer : (clearError s).packer = s.packer := rfl
@[simp] theorem clearError_comp : (clearError s).comp = s.comp := rfl
@[simp] theorem clearError_out : (clearError s).out = s.out := rfl
@[simp] theorem clearError_error : (clearError s).error = ErrorRecord.reset := rfl
@[simp] theorem clearError_port : (clearError s).port = s.port := rfl

end

section
variable (s : State) (x : Byte)

@[simp] theorem cmpInByte_regs : (cmpInByte x s).regs = s.regs := rfl
@[simp] theorem cmpInByte_crcAcc : (cmpInByte x s).crcAcc = s.crcAcc := rfl
@[simp] theorem cmpInByte_packer : (cmpInByte x s).packer = s.packer := rfl
@[simp] theorem cmpInByte_comp : (cmpInByte x s).comp = s.comp.enter x := rfl
@[simp] theorem cmpInByte_out : (cmpInByte x s).out = s.out := rfl
@[simp] theorem cmpInByte_error : (cmpInByte x s).error = s.error := rfl
@[simp] theorem cmpInByte_port : (cmpInByte x s).port = s.port := rfl

end

section
variable (s : State)

@[simp] theorem closeStream_regs : (closeStream s).regs = s.regs := rfl
@[simp] theorem closeStream_crcAcc : (closeStream s).crcAcc = s.crcAcc := rfl
@[simp] theorem closeStream_packer : (closeStream s).packer = s.packer := rfl
@[simp] theorem closeStream_comp : (closeStream s).comp = { s.comp with cmpOpen := false } := rfl
@[simp] theorem closeStream_out : (closeStream s).out = s.out := rfl
@[simp] theorem closeStream_error : (closeStream s).error = s.error := rfl
@[simp] theorem closeStream_port : (closeStream s).port = s.port := rfl

end

section
variable (s : State)

@[simp] theorem resetEngine_regs : (resetEngine s).regs = Registers.reset := rfl
@[simp] theorem resetEngine_crcAcc : (resetEngine s).crcAcc = 0xFFFFFFFF#32 := rfl
@[simp] theorem resetEngine_packer : (resetEngine s).packer = Packer.reset := rfl
@[simp] theorem resetEngine_comp : (resetEngine s).comp = Compressor.reset := rfl
@[simp] theorem resetEngine_out : (resetEngine s).out = Output.reset := rfl
@[simp] theorem resetEngine_error : (resetEngine s).error = ErrorRecord.reset := rfl
@[simp] theorem resetEngine_port : (resetEngine s).port = { s.port with draw := s.port.draw + 1 } := rfl

end

section
variable (s : State) (e : ErrorName)

@[simp] theorem raise_regs : (raise e s).regs = s.regs := by unfold raise; split <;> rfl
@[simp] theorem raise_crcAcc : (raise e s).crcAcc = s.crcAcc := by unfold raise; split <;> rfl
@[simp] theorem raise_packer : (raise e s).packer = s.packer := by unfold raise; split <;> rfl
@[simp] theorem raise_comp : (raise e s).comp = s.comp := by unfold raise; split <;> rfl
@[simp] theorem raise_out : (raise e s).out = s.out := by unfold raise; split <;> rfl
theorem raise_error :
    (raise e s).error = if s.error.err then s.error else { err := true, errCode := errorCode e } := by
  unfold raise; split <;> rfl
@[simp] theorem raise_port : (raise e s).port = s.port := by unfold raise; split <;> rfl

end

section
variable (s : State) (u : Units)

@[simp] theorem setUnits_regs : (s.setUnits u).regs = s.regs := rfl
@[simp] theorem setUnits_crcAcc : (s.setUnits u).crcAcc = s.crcAcc := rfl
@[simp] theorem setUnits_out : (s.setUnits u).out = s.out := rfl
@[simp] theorem setUnits_error : (s.setUnits u).error = s.error := rfl
@[simp] theorem setUnits_port : (s.setUnits u).port = s.port := rfl
@[simp] theorem setUnits_packer : (s.setUnits u).packer = u.1 := rfl
@[simp] theorem setUnits_comp : (s.setUnits u).comp = u.2 := rfl

end

section
variable (s : State) (b : Bool) (bs : List Bool)

@[simp] theorem pushBit_regs : (pushBit b s).regs = s.regs := rfl
@[simp] theorem pushBits_regs : (pushBits bs s).regs = s.regs := rfl
@[simp] theorem pushBit_crcAcc : (pushBit b s).crcAcc = s.crcAcc := rfl
@[simp] theorem pushBits_crcAcc : (pushBits bs s).crcAcc = s.crcAcc := rfl
@[simp] theorem pushBit_out : (pushBit b s).out = s.out := rfl
@[simp] theorem pushBits_out : (pushBits bs s).out = s.out := rfl
@[simp] theorem pushBit_error : (pushBit b s).error = s.error := rfl
@[simp] theorem pushBits_error : (pushBits bs s).error = s.error := rfl
@[simp] theorem pushBit_port : (pushBit b s).port = s.port := rfl
@[simp] theorem pushBits_port : (pushBits bs s).port = s.port := rfl
@[simp] theorem pushBit_packer : (pushBit b s).packer = (packBit b (s.packer, s.comp)).1 := rfl
@[simp] theorem pushBits_packer : (pushBits bs s).packer = (packBits bs (s.packer, s.comp)).1 := rfl
@[simp] theorem pushBit_comp : (pushBit b s).comp = (packBit b (s.packer, s.comp)).2 := rfl
@[simp] theorem pushBits_comp : (pushBits bs s).comp = (packBits bs (s.packer, s.comp)).2 := rfl

end

end Sys2Proof.Machine
end

