-- ==== Sys2Proof/Laws/Ops.lean ====
section
/-! SUPPORT. What the shared operations do, once each: a byte string entering the compressor, a pixel bit, the end of a
stream, a refusal. -/

namespace Sys2Proof.Machine

/-- An admitted size of the output RAM (00_scope.md R6). -/
theorem outRamBytes_bounds :
    12 ≤ Config.outRamBytes ∧ Config.outRamBytes ≤ 2 ^ 20 ∧ Config.outRamBytes % 4 = 0 := by
  have := Nat.mod_lt (Config.outRamChoice.val + 1021) (show 0 < 262142 by decide)
  unfold Config.outRamBytes
  omega

theorem raise_of_err {s : State} (e : ErrorName) (h : s.error.err = true) : raise e s = s := by simp [raise, h]

theorem raise_of_no_err {s : State} (e : ErrorName) (h : s.error.err = false) :
    raise e s = s.setError { err := true, errCode := errorCode e } := by simp [raise, h]

@[simp] theorem enter_cmpIn (c : Compressor) (x : Byte) : (c.enter x).cmpIn = c.cmpIn ++ [x] := rfl
@[simp] theorem enter_cmpOpen (c : Compressor) (x : Byte) : (c.enter x).cmpOpen = c.cmpOpen := rfl
@[simp] theorem enter_cmpLevel (c : Compressor) (x : Byte) : (c.enter x).cmpLevel = c.cmpLevel := rfl
@[simp] theorem enter_cmpCount (c : Compressor) (x : Byte) : (c.enter x).cmpCount = c.cmpCount + 1 := rfl

/-- The input side after a byte string has entered. -/
theorem cmpInBytes_eq (xs : List Byte) (s : State) :
    cmpInBytes xs s = s.setComp (xs.foldl Compressor.enter s.comp) := by
  induction xs generalizing s with
  | nil => rfl
  | cons x xs ih => exact ih (cmpInByte x s)

theorem foldl_enter_cmpIn (xs : List Byte) (c : Compressor) : (xs.foldl Compressor.enter c).cmpIn = c.cmpIn ++ xs := by
  induction xs generalizing c with
  | nil => simp
  | cons x xs ih => simp [ih]

theorem foldl_enter_cmpOpen (xs : List Byte) (c : Compressor) :
    (xs.foldl Compressor.enter c).cmpOpen = c.cmpOpen := by
  induction xs generalizing c with
  | nil => rfl
  | cons x xs ih => simp [ih]

theorem foldl_enter_cmpLevel (xs : List Byte) (c : Compressor) :
    (xs.foldl Compressor.enter c).cmpLevel = c.cmpLevel := by
  induction xs generalizing c with
  | nil => rfl
  | cons x xs ih => simp [ih]

theorem foldl_enter_cmpCount (xs : List Byte) (c : Compressor) :
    (xs.foldl Compressor.enter c).cmpCount = c.cmpCount + BitVec.ofNat 32 xs.length := by
  induction xs generalizing c with
  | nil => simp
  | cons x xs ih =>
    rw [List.foldl_cons, ih, enter_cmpCount, List.length_cons, Nat.add_comm xs.length 1, BitVec.ofNat_add, BitVec.add_assoc]
    rfl

/-- The two sums over a byte string followed by one more byte. -/
theorem adlerSums_append_one (xs : List Byte) (x : Byte) :
    adlerSums (xs ++ [x]) = adlerStep (adlerSums xs).1 (adlerSums xs).2 x := by simp [adlerSums]

/-- `PushBit` keeps the latched width and gives the compressor no byte, one or two; it keeps the open flag and the level
(41_packer.md R76). -/
theorem packBit_cases (b : Bool) (u : Units) :
    (packBit b u).1.pkW = u.1.pkW ∧ ∃ xs : List Byte, (packBit b u).2 = xs.foldl Compressor.enter u.2 := by
  unfold packBit endRowIfDone flushPartial pushIntoByte
  simp only
  split_ifs
  all_goals first
    | exact ⟨rfl, [], rfl⟩
    | exact ⟨rfl, [_], rfl⟩
    | exact ⟨rfl, [_, _], rfl⟩

/-- The same of a string of bits. -/
theorem packBits_cases (bs : List Bool) (u : Units) :
    (packBits bs u).1.pkW = u.1.pkW ∧ ∃ xs : List Byte, (packBits bs u).2 = xs.foldl Compressor.enter u.2 := by
  induction bs generalizing u with
  | nil => exact ⟨rfl, [], rfl⟩
  | cons b bs ih =>
    obtain ⟨hw, xs, hx⟩ := packBit_cases b u
    obtain ⟨hw', ys, hy⟩ := ih (packBit b u)
    refine ⟨hw'.trans hw, xs ++ ys, ?_⟩
    rw [List.foldl_append, ← hx]
    exact hy

theorem packBits_append (ps qs : List Bool) (u : Units) : packBits (ps ++ qs) u = packBits qs (packBits ps u) := by
  simp [packBits]

theorem pushBits_nil (s : State) : pushBits [] s = s := rfl

theorem pushBits_cons (b : Bool) (bs : List Bool) (s : State) : pushBits (b :: bs) s = pushBits bs (pushBit b s) := rfl

theorem pushBits_eq_foldl (bs : List Bool) (s : State) : pushBits bs s = bs.foldl (fun t b => pushBit b t) s := by
  induction bs generalizing s with
  | nil => rfl
  | cons b bs ih => exact ih (pushBit b s)

theorem pushBits_append (ps qs : List Bool) (s : State) : pushBits (ps ++ qs) s = pushBits qs (pushBits ps s) := by
  simp only [pushBits, packBits_append]; rfl

/-- The end of a stream whose result fits. -/
theorem finishWith_fits {cap : Nat} {z : List Byte} (s : State) (h : z.length ≤ cap) :
    finishWith cap z s = (closeStream s).setOut
      { outRam := s.out.outRam.writeBytes 0 z, outValid := true, outLen := BitVec.ofNat 32 z.length, cfail := false } := by
  simp [finishWith, h]

/-- The end of a stream whose result does not fit. -/
theorem finishWith_fails {cap : Nat} {z : List Byte} (s : State) (h : cap < z.length) :
    finishWith cap z s = nextDraw ((closeStream s).setOut
      { outRam := [], outValid := false, outLen := 0#32, cfail := true }) := by
  simp [finishWith, Nat.not_le.2 h]

end Sys2Proof.Machine
end

