-- ==== Sys2Proof/Laws/Bus.lean ====
section
/-! SUPPORT. The register map and the bus: which offsets are in the aperture, which register stands where, what the next
access of each kind does. -/

namespace Sys2Proof.Machine

theorem inAperture_iff (off : Nat) : inAperture off = true ↔ off < 0x1000 + Config.outRamBytes := by
  unfold inAperture windowBase
  rw [Bool.or_eq_true, decide_eq_true_iff, decide_eq_true_iff]
  omega

theorem inAperture_of_lt {off : Nat} (h : off < 0x1000) : inAperture off = true := (inAperture_iff off).2 (by omega)

theorem isWordAccess_iff (off : Nat) (w : Width) : isWordAccess off w = true ↔ w = .w32 ∧ off % 4 = 0 := by
  simp [isWordAccess]

/-- Each register stands at its own offset. -/
theorem regAt_regOffset (r : Reg) : regAt (regOffset r) = some r := by cases r <;> decide

/-- A register found at an offset stands there. -/
theorem regOffset_of_regAt {off : Nat} {r : Reg} (h : regAt off = some r) : regOffset r = off := by
  have := List.find?_some h
  simpa using this

theorem regAt_eq_none {off : Nat} (h : ∀ r, regOffset r ≠ off) : regAt off = none := by
  cases hr : regAt off with
  | none => rfl
  | some r => exact absurd (regOffset_of_regAt hr) (h r)

theorem regOffset_lt (r : Reg) : regOffset r < 0x038 := by cases r <;> decide

theorem regOffset_aligned (r : Reg) : regOffset r % 4 = 0 := by cases r <;> rfl

/-- The next access is a read in the aperture. -/
theorem step_read {s : State} {off : Nat} {w : Width} {rest : List Event} (hp : s.port.pending = .read off w :: rest)
    (ho : inAperture off = true) : step s = .next (busRead off w (takeEvent rest s)) := by
  simp only [step, accept, hp, deliver, ho, if_true]

/-- The next access is an aligned 32-bit write to CMD. -/
theorem accept_cmdWrite {s : State} {v : Word} {rest : List Event} (hp : s.port.pending = cmdWrite v :: rest) :
    accept s = busCommand v (takeEvent rest s) := by
  have h8 : inAperture (regOffset .cmd) = true := inAperture_of_lt (by decide)
  have hr : regAt (regOffset .cmd) = some .cmd := regAt_regOffset .cmd
  simp only [accept, hp, cmdWrite, deliver, h8, if_true, busWrite,
    (isWordAccess_iff (regOffset .cmd) .w32).2 ⟨rfl, rfl⟩, hr]

/-- The next access is an aligned 32-bit write to a register other than CMD. -/
theorem step_regWrite {s : State} {r : Reg} {v : Word} {rest : List Event} (hr : r ≠ .cmd)
    (hp : s.port.pending = .write (regOffset r) .w32 v :: rest) :
    step s = .next (writeReg r v (takeEvent rest s)) := by
  have h8 : inAperture (regOffset r) = true := inAperture_of_lt (by have := regOffset_lt r; omega)
  have hw := (isWordAccess_iff (regOffset r) .w32).2 ⟨rfl, regOffset_aligned r⟩
  have ha := regAt_regOffset r
  simp only [step, accept, hp, deliver, h8, if_true, busWrite, hw]
  cases r <;> first | (exact absurd rfl hr) | simp only [ha]

/-- The next access is an aligned 32-bit write in the aperture where no register stands. -/
theorem step_write_ignored {s : State} {off : Nat} {v : Word} {rest : List Event} (hp : s.port.pending = .write off .w32 v :: rest)
    (ho : inAperture off = true) (h4 : off % 4 = 0) (hr : regAt off = none) : step s = .next (takeEvent rest s) := by
  simp only [step, accept, hp, deliver, ho, if_true, busWrite, (isWordAccess_iff off .w32).2 ⟨rfl, h4⟩, hr]

/-- The next access is a write in the aperture that is not an aligned 32-bit one. -/
theorem step_write_refused {s : State} {off : Nat} {w : Width} {v : Word} {rest : List Event}
    (hp : s.port.pending = .write off w v :: rest) (ho : inAperture off = true) (hw : isWordAccess off w = false) :
    step s = .next (raise .access (takeEvent rest s)) := by
  simp only [step, accept, hp, deliver, ho, if_true, busWrite, hw, if_neg Bool.false_ne_true]

end Sys2Proof.Machine
end

