-- ==== Sys2Proof/Laws/HostEncode.lean ====
section
/-! SUPPORT. What the engine does with one statement of the host, with a list of them, and with the parts of the host's encode
procedure (70_reset_and_hazards.md R147): one lemma for each. -/

namespace Sys2Proof.Machine

/-- A legal command's word decodes to it. -/
theorem decode_encode {i : Instr} (h : i.wellFormed = true) : decode (encode i) = .ok i := by
  cases i with
  | crcUpd n => revert n; decide
  | cmpWr n => revert n; decide
  | pkBits n => revert n; decide
  | _ => rfl

/-- An event placed first and taken up leaves the state as it was. -/
theorem takeEvent_placeFirst (e : Event) (s : State) : takeEvent s.port.pending (placeFirst e s) = s := rfl

/-- A command statement executes its command. -/
theorem hostStep_cmd {i : Instr} {s t : State} (hi : i.wellFormed = true) (h : exec i s = .next t) :
    hostStep (.cmd i) s = some t := by
  have ha : accept (placeFirst (cmdWrite (encode i)) s) = .run i s := by
    rw [accept_cmdWrite (rest := s.port.pending) rfl, takeEvent_placeFirst, busCommand, decode_encode hi]
  simp only [hostStep, stmtEvent, step, ha, h]

/-- A write statement to a register other than CMD is that register's write. -/
theorem hostStep_wr {r : Reg} (hr : r ≠ .cmd) (v : Word) (s : State) : hostStep (.wr r v) s = some (writeReg r v s) := by
  have h := step_regWrite (s := placeFirst (.write (regOffset r) .w32 v) s) hr rfl
  rw [takeEvent_placeFirst] at h
  simp only [hostStep, stmtEvent, h]

/-- A register read returns the register's value and changes nothing. -/
theorem hostRead_rd (r : Reg) (s : State) : hostRead (.rd r) s = some (readReg s r, returnValue (readReg s r) s) := by
  have hlt : regOffset r < windowBase := by have := regOffset_lt r; simp only [windowBase]; omega
  have h := step_read (s := placeFirst (.read (regOffset r) .w32) s) rfl (inAperture_of_lt hlt)
  rw [takeEvent_placeFirst, busRead, if_pos ((isWordAccess_iff _ _).2 ⟨rfl, regOffset_aligned r⟩)] at h
  simp only [readWord, regAt_regOffset, readDraws, hlt, decide_true, Bool.not_true, Bool.false_and,
    if_neg Bool.false_ne_true] at h
  simp only [hostRead, hostStep, stmtEvent, h, Option.bind_some, returnValue, setPort_port, List.getLast?_append,
    List.getLast?_singleton, Option.some_or, Option.map_some]

/-- A read of the OUT window's word `k` returns it; only the draw of free values may advance. -/
theorem hostRead_rdo {k : Nat} (hk : 4 * k < Config.outRamBytes) (s : State) :
    ∃ d, hostRead (.rdo k) s = some (windowWord s k, returnValue (windowWord s k) (s.setPort { s.port with draw := d })) := by
  have hin : inAperture (windowBase + 4 * k) = true := (inAperture_iff _).2 (by simp only [windowBase]; omega)
  have h := step_read (s := placeFirst (.read (windowBase + 4 * k) .w32) s) rfl hin
  have hn : regAt (windowBase + 4 * k) = none :=
    regAt_eq_none fun r => by have := regOffset_lt r; simp only [windowBase]; omega
  have hge : ¬ windowBase + 4 * k < windowBase := by omega
  have hd : (windowBase + 4 * k - windowBase) / 4 = k := by omega
  rw [takeEvent_placeFirst, busRead,
    if_pos ((isWordAccess_iff _ _).2 ⟨rfl, by simp only [windowBase]; omega⟩)] at h
  simp only [readWord, hn, if_neg hge, hd] at h
  have hr : hostRead (.rdo k) s = some (windowWord s k, returnValue (windowWord s k)
      (if readDraws (windowBase + 4 * k) s then nextDraw s else s)) := by
    simp only [hostRead, hostStep, stmtEvent, h, Option.bind_some, returnValue, setPort_port, List.getLast?_append,
      List.getLast?_singleton, Option.some_or, Option.map_some]
  rw [hr]
  split_ifs
  · exact ⟨_, rfl⟩
  · exact ⟨s.port.draw, rfl⟩

theorem hostRun_cons {c : Stmt} {s t : State} (p : List Stmt) (h : hostStep c s = some t) :
    hostRun (c :: p) s = hostRun p t := by simp only [hostRun, h, Option.bind_some]

theorem hostRun_append (p q : List Stmt) (s : State) : hostRun (p ++ q) s = (hostRun p s).bind (hostRun q) := by
  induction p generalizing s with
  | nil => rfl
  | cons c p ih =>
    simp only [List.cons_append, hostRun, Option.bind_assoc]
    exact congrArg _ (funext ih)

/-- Legal commands, each after its write of DATA, run as the command sequence. -/
theorem hostRun_commands (cs : List (Word × Instr)) {s t : State} (hw : ∀ c ∈ cs, c.2.wellFormed = true)
    (h : runCommands cs s = .next t) : hostRun (cs.flatMap fun c => [.wr .data c.1, .cmd c.2]) s = some t := by
  induction cs generalizing s with
  | nil => exact congrArg some (Host.Outcome.next.inj h)
  | cons c cs ih =>
    obtain ⟨v, i⟩ := c
    simp only [runCommands] at h
    split at h
    · next u hu =>
      rw [List.flatMap_cons, List.cons_append, hostRun_cons _ (hostStep_wr (by decide) v s), List.cons_append,
        hostRun_cons _ (hostStep_cmd (hw _ (List.mem_cons_self ..)) hu)]
      exact ih (fun d hd => hw d (List.mem_cons_of_mem _ hd)) h
    · cases h
    · cases h

/-- CRC.B runs the CRC unit over the low bytes of the value it leaves in DATA. -/
theorem hostRun_crcB {n : BitVec 3} (hn : (Instr.crcUpd n).wellFormed = true) (v : Word) (s : State) :
    hostRun (expandPseudo (.crcB v n)) s =
      some ((writeReg .data v s).setCrc (crcBytes s.crcAcc (dataBytes n.toNat v))) := by
  have hc := (countN4Ok_iff n).1 hn
  have hb : badCountN4 n = false := Bool.eq_false_iff.2 fun h => by have := (badCountN4_iff n).1 h; omega
  rw [expandPseudo, hostRun_cons _ (hostStep_wr (by decide) v s)]
  refine hostRun_cons [] (hostStep_cmd hn ?_)
  simp only [exec, execCrcUpd, hb, if_neg Bool.false_ne_true]
  rfl

/-- The bytes of a word packed from four. -/
theorem packWord_bytes (a b c d : Byte) :
    (packWord a b c d).extractLsb' 24 8 = a ∧ (packWord a b c d).extractLsb' 16 8 = b ∧
      (packWord a b c d).extractLsb' 8 8 = c ∧ (packWord a b c d).extractLsb' 0 8 = d := by
  have hp : ∀ i, (packWord a b c d).getLsbD i = (a ++ b ++ c ++ d : BitVec (8 + 8 + 8 + 8)).getLsbD i := fun _ => rfl
  refine ⟨?_, ?_, ?_, ?_⟩ <;> refine BitVec.eq_of_getLsbD_eq fun i hi => ?_
  all_goals
    simp only [BitVec.getLsbD_extractLsb', hp, BitVec.getLsbD_append, hi, decide_true, Bool.true_and]
    split_ifs <;> first | omega | (congr 1; omega)

theorem be32_packWord (a b c d : Byte) : be32 (packWord a b c d) = [a, b, c, d] := by simp [be32, packWord_bytes]

/-- What the statements of `crcStmts` do: the CRC unit runs over the byte string, and of the rest only DATA changes. -/
theorem hostRun_crcStmts (xs : List Byte) (s : State) :
    ∃ d, hostRun (crcStmts xs) s = some ((writeReg .data d s).setCrc (crcBytes s.crcAcc xs)) := by
  have hb : ∀ a b c d : Byte, dataBytes 4 (packWord a b c d) = [a, b, c, d] ∧
      dataBytes 3 (packWord a b c d) = [b, c, d] ∧ dataBytes 2 (packWord a b c d) = [c, d] ∧
      dataBytes 1 (packWord a b c d) = [d] := by
    intro a b c d
    refine ⟨?_, ?_, ?_, ?_⟩ <;> simp [dataBytes, List.range_succ, packWord_bytes]
  induction xs using crcStmts.induct generalizing s with
  | case1 => exact ⟨s.regs.data, rfl⟩
  | case2 a => exact ⟨_, (hb 0 0 0 a).2.2.2 ▸ hostRun_crcB (n := 1#3) rfl _ s⟩
  | case3 a b => exact ⟨_, (hb 0 0 a b).2.2.1 ▸ hostRun_crcB (n := 2#3) rfl _ s⟩
  | case4 a b c => exact ⟨_, (hb 0 a b c).2.1 ▸ hostRun_crcB (n := 3#3) rfl _ s⟩
  | case5 a b c d rest ih =>
    obtain ⟨e, he⟩ := ih ((writeReg .data (packWord a b c d) s).setCrc (crcBytes s.crcAcc [a, b, c, d]))
    refine ⟨e, ?_⟩
    have h4 := hostRun_crcB (n := 4#3) rfl (packWord a b c d) s
    rw [show dataBytes (4#3 : BitVec 3).toNat (packWord a b c d) = [a, b, c, d] from (hb a b c d).1] at h4
    rw [crcStmts, hostRun_append, h4, Option.bind_some, he]
    rfl

/-- CHUNKCRC starts the CRC of a chunk with its type. -/
theorem hostRun_chunkCrc (ty : Word) (s : State) :
    hostRun (expandPseudo (.chunkCrc ty)) s =
      some ((writeReg .data ty s).setCrc (crcBytes 0xFFFFFFFF#32 (be32 ty))) := by
  have h4 : dataBytes 4 ty = be32 ty := by simp [dataBytes, be32, List.range_succ]
  rw [expandPseudo, hostRun_cons _ (hostStep_cmd (i := .crcInit) rfl rfl)]
  exact (hostRun_crcB (n := 4#3) rfl ty (s.setCrc 0xFFFFFFFF#32)).trans (by rw [← h4]; rfl)

/-- The host's chunk is the chunk, if the statements `covers` run the CRC unit over its payload; of the engine only the CRC
register and DATA change with them. -/
theorem hostChunk_eq {ty : Word} {payload : List Byte} {covers : List Stmt} {s t : State}
    (h : hostRun covers ((writeReg .data ty s).setCrc (crcBytes 0xFFFFFFFF#32 (be32 ty))) = some t)
    (hc : t.crcAcc = crcBytes (crcBytes 0xFFFFFFFF#32 (be32 ty)) payload) :
    hostChunk ty payload covers s = some (chunk ty payload, returnValue (crc32 (be32 ty ++ payload)) t) := by
  have hv : readReg t .crcValue = crc32 (be32 ty ++ payload) := by
    simp only [readReg, crcValue, hc, crc32, crcBytes, List.foldl_append]
  simp only [hostChunk, hostRun_append, hostRun_chunkCrc, Option.bind_some, h, hostRead_rd, hv, Option.map_some, chunk]

/-- The chunk whose payload the host writes to the unit itself. -/
theorem hostChunk_crcStmts (ty : Word) (payload : List Byte) (s : State) :
    ∃ d c p, hostChunk ty payload (crcStmts payload) s =
      some (chunk ty payload, ((writeReg .data d s).setCrc c).setPort p) := by
  obtain ⟨d, hd⟩ := hostRun_crcStmts payload ((writeReg .data ty s).setCrc (crcBytes 0xFFFFFFFF#32 (be32 ty)))
  exact ⟨d, _, _, hostChunk_eq hd rfl⟩

/-- A word of the OUT window is its four bytes. -/
theorem be32_windowWord (s : State) (k : Nat) : be32 (windowWord s k) =
    [windowByte s (4 * k), windowByte s (4 * k + 1), windowByte s (4 * k + 2), windowByte s (4 * k + 3)] :=
  be32_packWord _ _ _ _

/-- The stream `xs` is held in the output RAM. -/
def HoldsBytes (o : Output) (xs : List Byte) : Prop :=
  o.outValid = true ∧ o.outLen.toNat = xs.length ∧ ∀ i, i < xs.length → o.outRam.read i = xs[i]?

theorem windowByte_of_holds {s : State} {xs : List Byte} (h : HoldsBytes s.out xs) {i : Nat} (hi : i < xs.length) :
    some (windowByte s i) = xs[i]? := by
  have hd : windowDefined s i = true := by simp [windowDefined, h.1, h.2.1, hi]
  have hr := h.2.2 i hi
  rw [List.getElem?_eq_getElem hi] at hr ⊢
  simp [windowByte, hd, ramByte, hr]

theorem outBytes_of_holds {s : State} {xs : List Byte} (h : HoldsBytes s.out xs) : outBytes s = xs := by
  refine List.ext_getElem? fun i => ?_
  by_cases hi : i < xs.length
  · have hr := h.2.2 i hi
    rw [List.getElem?_eq_getElem hi] at hr
    simp [outBytes, h.2.1, hi, ramByte, hr]
  · simp [outBytes, h.2.1, hi]

/-- Reading words of a held stream back: their bytes are the stream's, and only the model's own fields change. -/
theorem hostReadWords_holds {xs : List Byte} (n k : Nat) (s : State) (h : HoldsBytes s.out xs)
    (hcap : xs.length ≤ Config.outRamBytes) (hn : n = 0 ∨ 4 * (k + n) < xs.length + 4) :
    ∃ ws p, hostReadWords n k s = some (ws, s.setPort p) ∧ (ws.flatMap be32).length = 4 * n ∧
      ∀ i, 4 * k + i < xs.length → i < 4 * n → (ws.flatMap be32)[i]? = xs[4 * k + i]? := by
  induction n generalizing k s with
  | zero => exact ⟨[], s.port, rfl, rfl, fun i _ h0 => absurd h0 (by omega)⟩
  | succ n ih =>
    obtain ⟨d, hd⟩ := hostRead_rdo (k := k) (by omega) s
    obtain ⟨ws, p, hw, hl, hx⟩ := ih (k + 1) (returnValue (windowWord s k) (s.setPort { s.port with draw := d })) h
      (by omega)
    refine ⟨windowWord s k :: ws, p, ?_, ?_, fun i hi hin => ?_⟩
    · rw [hostReadWords, hd, Option.bind_some, hw]; rfl
    · rw [List.flatMap_cons, List.length_append, hl, be32_windowWord]; simp only [List.length_cons, List.length_nil]; omega
    · rw [List.flatMap_cons, be32_windowWord]
      by_cases h4 : i < 4
      · rw [List.getElem?_append_left (by simpa using h4), ← windowByte_of_holds h hi]
        interval_cases i <;> rfl
      · rw [List.getElem?_append_right (by simp; omega)]
        have hi' := hx (i - 4) (by omega) (by omega)
        rw [show 4 * (k + 1) + (i - 4) = 4 * k + i by omega] at hi'
        exact hi'

/-- The host reads back exactly the held stream. -/
theorem hostReadOut_holds {xs : List Byte} {s : State} (h : HoldsBytes s.out xs) (hcap : xs.length ≤ Config.outRamBytes) :
    ∃ p, hostReadOut s = some (xs, s.setPort p) := by
  obtain ⟨ws, p, hw, hl, hx⟩ := hostReadWords_holds ((xs.length + 3) / 4) 0 (returnValue s.out.outLen s) h hcap (by omega)
  refine ⟨p, ?_⟩
  rw [hostReadOut, hostRead_rd, Option.bind_some]
  simp only [readReg, h.2.1, hw, Option.map_some]
  congr 2
  refine List.ext_getElem? fun i => ?_
  by_cases hi : i < xs.length
  · rw [List.getElem?_take_of_lt hi, hx i (by omega) (by omega)]; simp
  · rw [List.getElem?_eq_none (by rw [List.length_take]; omega), List.getElem?_eq_none (by omega)]

/-- The end of the procedure with a held stream and no stream open: the data chunk of exactly that stream, with the CRC
that CRC_OUT computes, and the terminator. -/
theorem hostEmit_holds {xs : List Byte} {s : State} (head : List Byte) (h : HoldsBytes s.out xs)
    (hcap : xs.length ≤ Config.outRamBytes) (ho : s.comp.cmpOpen = false) :
    ∃ d c p, hostEmit head s =
      some (head ++ chunk tagIdat xs ++ chunk tagIend [], ((writeReg .data d s).setCrc c).setPort p) := by
  obtain ⟨p, hp⟩ := hostReadOut_holds h hcap
  have hout : ∀ (t : State) (a : Word), t.comp = s.comp → t.out = s.out →
      hostRun [.cmd .crcOut] (t.setCrc a) = some (t.setCrc (crcBytes a xs)) := fun t a hc hs => by
    refine hostRun_cons [] (hostStep_cmd rfl ?_)
    have hb : outBytes (t.setCrc a) = xs := outBytes_of_holds (hs ▸ h)
    simp only [exec, execCrcOut, setCrc_comp, hc, ho, if_neg Bool.false_ne_true, hb, setCrc_crcAcc]
    rfl
  have hd := hostChunk_eq (ty := tagIdat) (payload := xs)
    (hout (writeReg .data tagIdat (s.setPort p)) (crcBytes 0xFFFFFFFF#32 (be32 tagIdat)) rfl rfl) (setCrc_crcAcc _ _)
  obtain ⟨d, c, q, he⟩ := hostChunk_crcStmts tagIend [] (returnValue (crc32 (be32 tagIdat ++ xs))
    ((writeReg .data tagIdat (s.setPort p)).setCrc (crcBytes (crcBytes 0xFFFFFFFF#32 (be32 tagIdat)) xs)))
  refine ⟨d, c, q, ?_⟩
  rw [hostEmit, hp, Option.bind_some, hd, Option.bind_some]
  exact (congrArg (Option.map _) he).trans rfl

end Sys2Proof.Machine
end

