-- ==== Sys2Proof/Laws/Inflate.lean ====
section
/-! SUPPORT. `Inflate` undoes `Stored`: the level 0 body of every input inflates to that input (42_compressor.md R95, R97;
43_deflate_format.md R103, R112). -/

namespace Sys2Proof.Machine

/-- The value of a bit string read with its first bit as bit 0. -/
def bitValue : List Bool → Nat
  | [] => 0
  | b :: bs => b.toNat + 2 * bitValue bs

theorem bitValue_append (l r : List Bool) : bitValue (l ++ r) = bitValue l + 2 ^ l.length * bitValue r := by
  induction l with
  | nil => simp [bitValue]
  | cons b l ih => simp only [List.cons_append, bitValue, ih, List.length_cons, Nat.pow_succ]; ring

theorem readField_append (l rest : List Bool) : readField l.length (l ++ rest) = some (bitValue l, rest) := by
  induction l with
  | nil => rfl
  | cons b l ih => simp [readField, ih, bitValue]

/-- The bits of one byte. -/
def byteBits (b : Byte) : List Bool := (List.range 8).map (fun i => b.getLsbD i)

@[simp] theorem byteBits_length (b : Byte) : (byteBits b).length = 8 := by simp [byteBits]

theorem bitsOf_cons (b : Byte) (d : List Byte) : bitsOf (b :: d) = byteBits b ++ bitsOf d := rfl

theorem bitsOf_append (c d : List Byte) : bitsOf (c ++ d) = bitsOf c ++ bitsOf d := by simp [bitsOf]

theorem bitsOf_length (d : List Byte) : (bitsOf d).length = 8 * d.length := by
  induction d with
  | nil => rfl
  | cons b d ih => simp [bitsOf_cons, ih]; ring

theorem bitValue_byteBits (b : Byte) : bitValue (byteBits b) = b.toNat := by revert b; decide

theorem readField_byte (b : Byte) (rest : List Bool) : readField 8 (byteBits b ++ rest) = some (b.toNat, rest) := by
  have := readField_append (byteBits b) rest
  rwa [byteBits_length, bitValue_byteBits] at this

theorem readField_le16 (v : BitVec 16) (rest : List Bool) :
    readField 16 (bitsOf (le16 v) ++ rest) = some (v.toNat, rest) := by
  have h := readField_append (bitsOf (le16 v)) rest
  have hl : (bitsOf (le16 v)).length = 16 := by rw [bitsOf_length]; rfl
  have hv : bitValue (bitsOf (le16 v)) = v.toNat := by
    have hnil : bitsOf [] = [] := rfl
    rw [le16, bitsOf_cons, bitsOf_cons, hnil, List.append_nil, bitValue_append, byteBits_length, bitValue_byteBits,
      bitValue_byteBits]
    simp only [BitVec.extractLsb'_toNat, Nat.shiftRight_eq_div_pow]
    have := v.isLt
    omega
  rw [hl, hv] at h
  exact h

theorem copyBytes_bitsOf (c : List Byte) (rest : List Bool) (rout : List Byte) :
    copyBytes c.length (bitsOf c ++ rest) rout = some (c.reverse ++ rout, rest) := by
  induction c generalizing rout with
  | nil => rfl
  | cons b c ih =>
    simp [copyBytes, bitsOf_cons, List.append_assoc, readField_byte, ih]

/-- The part of a stored block after its header byte. -/
def storedTail (c : List Byte) : List Byte :=
  le16 (BitVec.ofNat 16 c.length) ++ le16 (BitVec.ofNat 16 c.length ^^^ 0xFFFF#16) ++ c

theorem inflateStored_tail (c : List Byte) (rest : List Byte) (rout : List Byte) (h : c.length ≤ storedMax) :
    inflateStored (List.replicate 5 false ++ (bitsOf (storedTail c) ++ bitsOf rest)) rout =
      some (c.reverse ++ rout, bitsOf rest) := by
  have hskip : skipToByte (List.replicate 5 false ++ (bitsOf (storedTail c) ++ bitsOf rest)) =
      bitsOf (storedTail c) ++ bitsOf rest := by
    have hl : (List.replicate 5 false ++ (bitsOf (storedTail c) ++ bitsOf rest)).length % 8 = 5 := by
      simp only [List.length_append, List.length_replicate, bitsOf_length]; omega
    rw [skipToByte, hl]
    rfl
  have hlen : (BitVec.ofNat 16 c.length).toNat = c.length := by
    simp only [BitVec.toNat_ofNat]; unfold storedMax at h; omega
  have hx : (BitVec.ofNat 16 c.length ^^^ 0xFFFF#16).toNat = Nat.xor c.length 0xFFFF := by
    rw [BitVec.toNat_xor, hlen]; rfl
  rw [inflateStored, hskip, storedTail, bitsOf_append, bitsOf_append, List.append_assoc, List.append_assoc,
    readField_le16]
  simp only [readField_le16, hx, hlen, if_true, copyBytes_bitsOf]

theorem inflateBlocks_stored (final : Bool) (c rest : List Byte) (fuel : Nat) (rout : List Byte)
    (h : c.length ≤ storedMax) :
    inflateBlocks (fuel + 1) (bitsOf (storedBlock final c ++ rest)) rout =
      if final then some (c.reverse ++ rout, bitsOf rest) else inflateBlocks fuel (bitsOf rest) (c.reverse ++ rout) := by
  have hb : bitsOf (storedBlock final c ++ rest) =
      final :: false :: false :: (List.replicate 5 false ++ (bitsOf (storedTail c) ++ bitsOf rest)) := by
    have hhead : byteBits (if final then 0x01#8 else 0x00#8) = final :: false :: false :: List.replicate 5 false := by
      cases final <;> decide
    simp only [storedBlock, List.cons_append, bitsOf_cons, hhead]
    simp [storedTail, bitsOf_append, List.append_assoc]
  rw [hb]
  simp only [inflateBlocks, readField, Bool.toNat_false, Nat.mul_zero, Nat.add_zero, if_true, inflateStored_tail c rest rout h]
  cases final <;> simp

theorem inflateBlocks_storedBlocks (fuel : Nat) (x : List Byte) (k : Nat) (rout : List Byte)
    (hf : x.length < fuel) (hk : fuel ≤ k) :
    inflateBlocks k (bitsOf (storedBlocks fuel x)) rout = some (x.reverse ++ rout, []) := by
  induction fuel generalizing x k rout with
  | zero => omega
  | succ fuel ih =>
    obtain ⟨k, rfl⟩ : ∃ j, k = j + 1 := ⟨k - 1, by omega⟩
    simp only [storedBlocks]
    split_ifs with h
    · have := inflateBlocks_stored true x [] k rout h
      simpa [bitsOf] using this
    · have ht : (x.take storedMax).length ≤ storedMax := by simp
      have hm : 0 < storedMax := by decide
      rw [inflateBlocks_stored false _ _ k rout ht, if_neg (by decide),
        ih (x.drop storedMax) k _ (by simp; omega) (by omega), ← List.append_assoc, ← List.reverse_append,
        List.take_append_drop]

theorem storedBlocks_length (fuel : Nat) (x : List Byte) (hf : x.length < fuel) :
    x.length + 5 ≤ (storedBlocks fuel x).length := by
  induction fuel generalizing x with
  | zero => omega
  | succ fuel ih =>
    simp only [storedBlocks]
    split_ifs with h
    · simp [storedBlock, le16]
    · have hm : 0 < storedMax := by decide
      have := ih (x.drop storedMax) (by simp; omega)
      simp [storedBlock, le16] at this ⊢
      omega

/-- The level 0 body is lossless: it inflates to exactly its input. -/
theorem inflate_stored (x : List Byte) : inflate (stored x) = some x := by
  have hl := storedBlocks_length (x.length + 1) x (by omega)
  rw [inflate, stored, inflateBlocks_storedBlocks (x.length + 1) x _ [] (by omega) (by rw [bitsOf_length]; omega)]
  simp

end Sys2Proof.Machine
end

