-- ==== Sys2Proof/Laws/Memory.lean ====
section
/-! SUPPORT. The output RAM: a read after a write, and the canonical form and the size that every write keeps. -/

namespace Sys2Proof.Machine

theorem Memory.read_write_same (m : Memory) (a : Nat) (b : Byte) : (m.write a b).read a = some b := by
  induction m with
  | nil => simp [Memory.write, Memory.read]
  | cons c m ih =>
    obtain ⟨k, v⟩ := c
    simp only [Memory.write]
    split_ifs with h1 h2
    · simp [Memory.read]
    · simp [Memory.read]
    · simp [Memory.read, Ne.symm h2, ih]

theorem Memory.read_write_other (m : Memory) {a c : Nat} (b : Byte) (h : c ≠ a) : (m.write a b).read c = m.read c := by
  induction m with
  | nil => simp [Memory.write, Memory.read, h.symm]
  | cons d m ih =>
    obtain ⟨k, v⟩ := d
    simp only [Memory.write]
    split_ifs with h1 h2
    · simp [Memory.read, h.symm]
    · subst h2; simp [Memory.read, h.symm]
    · simp [Memory.read, ih]

theorem Memory.read_write (m : Memory) (a c : Nat) (b : Byte) :
    (m.write a b).read c = if c = a then some b else m.read c := by
  split_ifs with h
  · rw [h, Memory.read_write_same]
  · exact Memory.read_write_other m b h

/-- A byte string written from index `a` is read back byte for byte, and every other index reads as before. -/
theorem Memory.read_writeBytes (m : Memory) (bs : List Byte) (a c : Nat) :
    (m.writeBytes a bs).read c = if a ≤ c ∧ c < a + bs.length then bs[c - a]? else m.read c := by
  induction bs generalizing a with
  | nil => simp only [Memory.writeBytes, List.length_nil]; split_ifs <;> first | omega | rfl
  | cons b bs ih =>
    simp only [Memory.writeBytes, Memory.read_write, ih, List.length_cons]
    by_cases hc : c = a
    · subst hc; simp
    · by_cases hr : a + 1 ≤ c ∧ c < a + 1 + bs.length
      · have : c - a = (c - (a + 1)) + 1 := by omega
        rw [if_neg hc, if_pos hr, if_pos (by omega), this]; simp
      · rw [if_neg hc, if_neg hr, if_neg (by omega)]

theorem Memory.wf_iff (m : Memory) : m.wf = true ↔ m.Pairwise (fun c d => c.1 < d.1) := by simp [Memory.wf]

theorem Memory.within_iff (n : Nat) (m : Memory) : m.within n = true ↔ ∀ c ∈ m, c.1 < n := by
  simp [Memory.within, List.all_eq_true]

/-- The entries of a written memory are the new one and old ones. -/
theorem Memory.mem_write {m : Memory} {a : Nat} {b : Byte} {c : Host.Cell} (h : c ∈ m.write a b) : c = (a, b) ∨ c ∈ m := by
  induction m with
  | nil => simpa [Memory.write] using h
  | cons d m ih =>
    obtain ⟨k, v⟩ := d
    simp only [Memory.write] at h
    split_ifs at h with h1 h2
    · simpa using h
    · rcases List.mem_cons.1 h with h | h <;> simp [h]
    · rcases List.mem_cons.1 h with h | h
      · simp [h]
      · rcases ih h with h | h <;> simp [h]

theorem Memory.wf_write {m : Memory} (a : Nat) (b : Byte) (h : m.wf = true) : (m.write a b).wf = true := by
  rw [Memory.wf_iff] at *
  induction m with
  | nil => simp [Memory.write]
  | cons d m ih =>
    obtain ⟨k, v⟩ := d
    obtain ⟨hk, hm⟩ := List.pairwise_cons.1 h
    simp only [Memory.write]
    split_ifs with h1 h2
    · refine List.pairwise_cons.2 ⟨fun c hc => ?_, h⟩
      rcases List.mem_cons.1 hc with hc | hc
      · simpa [hc] using h1
      · exact h1.trans (hk c hc)
    · exact List.pairwise_cons.2 ⟨fun c hc => h2 ▸ hk c hc, hm⟩
    · refine List.pairwise_cons.2 ⟨fun c hc => ?_, ih hm⟩
      rcases Memory.mem_write hc with hc | hc
      · simp only [hc]; omega
      · exact hk c hc

theorem Memory.within_write {m : Memory} {n a : Nat} (b : Byte) (h : m.within n = true) (ha : a < n) :
    (m.write a b).within n = true := by
  rw [Memory.within_iff] at *
  intro c hc
  rcases Memory.mem_write hc with hc | hc
  · simpa [hc] using ha
  · exact h c hc

theorem Memory.wf_writeBytes {m : Memory} (a : Nat) (bs : List Byte) (h : m.wf = true) : (m.writeBytes a bs).wf = true := by
  induction bs generalizing a with
  | nil => exact h
  | cons b bs ih => exact Memory.wf_write a b (ih (a + 1))

theorem Memory.within_writeBytes {m : Memory} {n : Nat} (a : Nat) (bs : List Byte) (h : m.within n = true)
    (ha : a + bs.length ≤ n) : (m.writeBytes a bs).within n = true := by
  induction bs generalizing a with
  | nil => exact h
  | cons b bs ih =>
    simp only [List.length_cons] at ha
    exact Memory.within_write b (ih (a + 1) (by omega)) (by omega)

end Sys2Proof.Machine
end

