-- ==== Sys2Proof/Laws/PerInstr.lean ====
section
/-! SUPPORT. Facts about each command as syntax, one lemma per constructor: its word is in its own row of the match and
mask table (30_encoding.md R59). -/

namespace Sys2Proof.Laws

/-- The word of a command matches the command's row: `w & mask = match` (30_encoding.md R59). -/
def EncodeMatches.Statement (i : Instr) : Prop := encode i &&& rowMask i = rowMatch i

theorem EncodeMatches.nop : EncodeMatches.Statement .nop := by unfold EncodeMatches.Statement; decide
theorem EncodeMatches.srst : EncodeMatches.Statement .srst := by unfold EncodeMatches.Statement; decide
theorem EncodeMatches.clrerr : EncodeMatches.Statement .clrerr := by unfold EncodeMatches.Statement; decide
theorem EncodeMatches.crcInit : EncodeMatches.Statement .crcInit := by unfold EncodeMatches.Statement; decide
theorem EncodeMatches.crcUpd (n : BitVec 3) : EncodeMatches.Statement (.crcUpd n) := by
  unfold EncodeMatches.Statement; revert n; decide
theorem EncodeMatches.crcOut : EncodeMatches.Statement .crcOut := by unfold EncodeMatches.Statement; decide
theorem EncodeMatches.pkRow : EncodeMatches.Statement .pkRow := by unfold EncodeMatches.Statement; decide
theorem EncodeMatches.pkPix : EncodeMatches.Statement .pkPix := by unfold EncodeMatches.Statement; decide
theorem EncodeMatches.pkBits (n : BitVec 6) : EncodeMatches.Statement (.pkBits n) := by
  unfold EncodeMatches.Statement; revert n; decide
theorem EncodeMatches.cmpStart : EncodeMatches.Statement .cmpStart := by unfold EncodeMatches.Statement; decide
theorem EncodeMatches.cmpWr (n : BitVec 3) : EncodeMatches.Statement (.cmpWr n) := by
  unfold EncodeMatches.Statement; revert n; decide
theorem EncodeMatches.cmpFinish : EncodeMatches.Statement .cmpFinish := by unfold EncodeMatches.Statement; decide

end Sys2Proof.Laws
end

