-- ==== Sys2Proof/Laws/Step.lean ====
section
/-! SUPPORT. What a step and a command can do: the inversion lemmas from which claims over steps are derived. -/

namespace Sys2Proof.Machine

/-- Everything `exec` answers: a next state, always, and which one. A command is refused with `raise`, or has the effect
of its rule. -/
theorem exec_cases {i : Instr} {s t : State} (h : exec i s = .next t) :
    (∃ e, t = raise e s) ∨
    match i with
    | .nop => t = s
    | .srst => t = resetEngine s
    | .clrerr => t = clearError s
    | .crcInit => t = s.setCrc 0xFFFFFFFF#32
    | .crcUpd n => t = s.setCrc (crcBytes s.crcAcc (dataBytes n.toNat s.regs.data))
    | .crcOut => s.comp.cmpOpen = false ∧ t = s.setCrc (crcBytes s.crcAcc (outBytes s))
    | .pkRow => s.comp.cmpOpen = true ∧ s.packer.pkActive = false ∧ s.regs.width ≠ 0#32 ∧
        t = (cmpInByte s.regs.filter s).setPacker (s.packer.begin s.regs.width)
    | .pkPix => s.packer.pkActive = true ∧ t = pushBit (pixelBit s.regs.data s.regs.ink) s
    | .pkBits n => s.packer.pkActive = true ∧ n.toNat ≤ s.packer.pkW.toNat - s.packer.pkX.toNat ∧ 1 ≤ n.toNat ∧
        n.toNat ≤ 32 ∧ t = pushBits (dataBits n.toNat s.regs.data) s
    | .cmpStart => s.comp.cmpOpen = false ∧
        t = ((s.setComp { Compressor.reset with cmpOpen := true, cmpLevel := s.regs.level }).setOut
          { s.out with outValid := false, outLen := 0#32, cfail := false }).setPacker { s.packer with pkRows := 0#32 }
    | .cmpWr n => s.comp.cmpOpen = true ∧ s.packer.pkActive = false ∧
        t = cmpInBytes (dataBytes n.toNat s.regs.data) s
    | .cmpFinish => s.comp.cmpOpen = true ∧ s.packer.pkActive = false ∧
        t = finishWith Config.outRamBytes (zlibStream s.comp.cmpLevel s.comp.cmpIn) s := by
  cases i
  case nop => exact .inr (Host.Outcome.next.inj h).symm
  case srst => exact .inr (Host.Outcome.next.inj h).symm
  case clrerr => exact .inr (Host.Outcome.next.inj h).symm
  case crcInit => exact .inr (Host.Outcome.next.inj h).symm
  all_goals
    simp only [exec, execCrcUpd, execCrcOut, execPkRow, execPkPix, execPkBits, execCmpStart, execCmpWr, execCmpFinish,
      badCountN4, badCountN32, decide_eq_true_eq, Bool.not_eq_eq_eq_not, Bool.not_true] at h ⊢
    split_ifs at h
  all_goals have h := (Host.Outcome.next.inj h).symm
  all_goals generalize raise = r, finishWith = f at h ⊢
  all_goals first
    | exact .inl ⟨_, h⟩
    | (right; simp only [h, and_true])
  all_goals simp only [Bool.not_eq_true, Bool.not_eq_false, ne_eq] at *
  all_goals first
    | assumption
    | exact ⟨by assumption, by assumption⟩
    | exact ⟨by assumption, by assumption, by assumption⟩
    | exact ⟨by assumption, by omega, by omega, by omega⟩

/-- Everything the next event can do when it is one to the engine. -/
theorem deliver_cases (e : Event) (s : State) :
    deliver e s = .outside ∨
    (∃ off w v i, e = .write off w v ∧ decode v = .ok i ∧ deliver e s = .run i s) ∨
    (∃ t, deliver e s = .done t ∧
      (t = resetEngine s ∨ (∃ off w, t = busRead off w s) ∨ (∃ r v, t = writeReg r v s) ∨ (∃ x, t = raise x s) ∨ t = s)) := by
  cases e with
  | powerOnReset => exact .inr (.inr ⟨_, rfl, .inl rfl⟩)
  | read off w =>
    simp only [deliver]
    split_ifs
    · exact .inr (.inr ⟨_, rfl, .inr (.inl ⟨off, w, rfl⟩)⟩)
    · exact .inl rfl
  | write off w v =>
    simp only [deliver]
    split_ifs
    · simp only [busWrite]
      split_ifs
      · split
        · simp only [busCommand]
          split
          · exact .inr (.inl ⟨_, _, _, _, rfl, by assumption, rfl⟩)
          · exact .inr (.inr ⟨_, rfl, .inr (.inr (.inr (.inl ⟨_, rfl⟩)))⟩)
        · exact .inr (.inr ⟨_, rfl, .inr (.inr (.inl ⟨_, _, rfl⟩))⟩)
        · exact .inr (.inr ⟨_, rfl, .inr (.inr (.inr (.inr rfl)))⟩)
      · exact .inr (.inr ⟨_, rfl, .inr (.inr (.inr (.inl ⟨_, rfl⟩)))⟩)
    · exact .inl rfl

/-- Everything a step can do that answers a next state: nothing is pending, or the event taken up is a command that is
executed, or an access or a reset that is performed. -/
theorem step_cases {s t : State} (h : step s = .next t) :
    (s.port.pending = [] ∧ t = s) ∨
    ∃ e rest, s.port.pending = e :: rest ∧
      ((∃ off w v i, e = .write off w v ∧ decode v = .ok i ∧ exec i (takeEvent rest s) = .next t) ∨
        t = resetEngine (takeEvent rest s) ∨ (∃ off w, t = busRead off w (takeEvent rest s)) ∨
        (∃ r v, t = writeReg r v (takeEvent rest s)) ∨ (∃ x, t = raise x (takeEvent rest s)) ∨ t = takeEvent rest s) := by
  unfold step accept at h
  cases hp : s.port.pending with
  | nil => simp only [hp] at h; cases h; exact .inl ⟨rfl, rfl⟩
  | cons e rest =>
    refine .inr ⟨e, rest, rfl, ?_⟩
    simp only [hp] at h
    rcases deliver_cases e (takeEvent rest s) with ho | ⟨off, w, v, i, he, hd, ho⟩ | ⟨u, ho, hu⟩
    · rw [ho] at h; cases h
    · rw [ho] at h; exact .inl ⟨off, w, v, i, he, hd, h⟩
    · rw [ho] at h; cases h; exact .inr hu

end Sys2Proof.Machine
end

