-- ==== Sys2Proof/Tests/Slice0.lean ====
section
/-! SUPPORT. Tests, their expected values from spec/95_test_vectors.md or the rule named, and for each statement with
hypotheses a witness that meets them. -/

namespace Sys2Proof.Tests

open Sys2Proof.Machine

/-! ### States -/

/-- The state after a step or a command, if it goes on. -/
def after (o : Host.Outcome State Fault Refusal) : Option State :=
  match o with
  | .next s => some s
  | .fault _ => none
  | .refused _ => none

/-- Reset, with one event pending. -/
def tPend (e : Event) : State := { State.reset with port := { pending := [e], readLog := [], draw := 0 } }

/-- Reset, with a value in DATA. -/
def tData (v : Word) : State := writeReg .data v State.reset

/-- A stream open at level 0 with some input, a width and a value in DATA; no row active. -/
def tOpen (w d : Word) (xs : List Byte) : State :=
  { State.reset with
    regs := { Registers.reset with width := w, data := d }
    comp := xs.foldl Compressor.enter { Compressor.reset with cmpOpen := true } }

/-- The same, inside a row of width `w` just begun. -/
def tRow (w d : Word) (xs : List Byte) : State :=
  { tOpen w d xs with packer := { Packer.reset with pkActive := true, pkW := w } }

/-- The 11 bytes of V-CMP-1. -/
def emptyStream : List Byte :=
  [0x78#8, 0x01#8, 0x01#8, 0x00#8, 0x00#8, 0xFF#8, 0xFF#8, 0x00#8, 0x00#8, 0x00#8, 0x01#8]

/-- The stream of V-CMP-1 is held. -/
def tHeld : State :=
  { State.reset with
    out := { outRam := Memory.writeBytes [] 0 emptyStream, outValid := true, outLen := 11#32, cfail := false } }

/-! ### Legal commands and decoding -/

theorem test_wellFormed_crcUpd : (Instr.crcUpd 0#3).wellFormed = false ∧ (Instr.crcUpd 5#3).wellFormed = false ∧
    (Instr.crcUpd 4#3).wellFormed = true := by decide
theorem test_wellFormed_cmpWr : (Instr.cmpWr 0#3).wellFormed = false ∧ (Instr.cmpWr 5#3).wellFormed = false ∧
    (Instr.cmpWr 1#3).wellFormed = true := by decide
theorem test_wellFormed_pkBits : (Instr.pkBits 0#6).wellFormed = false ∧ (Instr.pkBits 33#6).wellFormed = false ∧
    (Instr.pkBits 32#6).wellFormed = true := by decide

/-- 30_encoding.md R58, control. -/
theorem test_decode_control : decode 0x00000000#32 = .ok .nop ∧ decode 0x01000000#32 = .ok .srst ∧
    decode 0x02000000#32 = .ok .clrerr := by decide
/-- 30_encoding.md R58, CRC: OPC 0x11 in bits 31:24 and N in bits 2:0. -/
theorem test_decode_crc : decode 0x10000000#32 = .ok .crcInit ∧ decode 0x12000000#32 = .ok .crcOut ∧
    decode 0b00010001000000000000000000000011#32 = .ok (.crcUpd 3#3) := by decide
/-- 30_encoding.md R58, packer: OPC 0x22 in bits 31:24 and N in bits 5:0. -/
theorem test_decode_packer : decode 0x20000000#32 = .ok .pkRow ∧ decode 0x21000000#32 = .ok .pkPix ∧
    decode 0b00100010000000000000000000010111#32 = .ok (.pkBits 23#6) := by decide
/-- 30_encoding.md R58, compressor: OPC 0x31 in bits 31:24 and N in bits 2:0. -/
theorem test_decode_compressor : decode 0x30000000#32 = .ok .cmpStart ∧ decode 0x32000000#32 = .ok .cmpFinish ∧
    decode 0b00110001000000000000000000000010#32 = .ok (.cmpWr 2#3) := by decide
/-- V-CTL-9 to V-CTL-11, V-PK-18 to V-PK-21, V-CMP-21. -/
theorem test_decode_refused : decode 0xFF000000#32 = .error .illegalOpcode ∧ decode 0x20000001#32 = .error .reservedArg ∧
    decode 0x22000040#32 = .error .reservedArg ∧ decode 0x22000000#32 = .error .badCount ∧
    decode 0x31000005#32 = .error .badCount ∧ decode 0x01000001#32 = .error .reservedArg := by decide
/-- 30_encoding.md R63: `CMD CRC_UPD 4` is the write of 0x11000004 at offset 0x008. -/
theorem test_statement_encoding :
    stmtEvent (.cmd (.crcUpd 4#3)) = .write 0x008 .w32 0x11000004#32 ∧ stmtEvent (.rdo 3) = .read 0x100C .w32 := by decide

/-! ### Commands -/

/-- V-CTL-1. -/
theorem test_nop : (after (exec .nop State.reset)).map statusWord = some 0x00000000#32 := by decide
/-- V-CTL-5: STATUS, INK and ADLER_VALUE after SRST inside a row. -/
theorem test_srst : (after (exec .srst (tRow 8#32 0#32 [0#8]))).map
    (fun t => (statusWord t, readReg t .ink, readReg t .adlerValue)) =
    some (0x00000000#32, 0xFF000000#32, 0x00000001#32) := by decide
/-- V-CTL-8. -/
theorem test_clrerr : (after (exec .clrerr (raise .noRow State.reset))).map statusWord = some 0x00000000#32 := by decide
/-- V-CRC-17: legal inside a row, STATUS unchanged. -/
theorem test_crcInit : (after (exec .crcInit { tRow 8#32 0#32 [0#8] with crcAcc := 5#32 })).map
    (fun t => (crcValue t, statusWord t)) = some (0x00000000#32, 0x00000003#32) := by decide
/-- V-CRC-12. -/
theorem test_crcUpd_one : (after (exec (.crcUpd 1#3) (tData 0x12345678#32))).map crcValue = some 0x8CDC1683#32 := by decide
/-- V-CRC-11: four bytes of one DATA value. -/
theorem test_crcUpd_four : (after (exec (.crcUpd 4#3) (tData 0x61626364#32))).map crcValue = some 0xED82CD11#32 := by decide +kernel
/-- V-CRC-20: the CRC value after the type bytes is V-CRC-7. -/
theorem test_crcOut : (after (exec .crcOut { tHeld with crcAcc := 0x35AF061E#32 ^^^ 0xFFFFFFFF#32 })).map crcValue =
    some 0x89D6AE5F#32 := by decide +kernel
/-- V-CRC-19. -/
theorem test_crcOut_refused : (after (exec .crcOut (tOpen 0#32 0#32 []))).map (fun t => (statusWord t, crcValue t)) =
    some (0x00000511#32, 0x00000000#32) := by decide
/-- V-PK-8, its first command: the filter byte 2 enters. -/
theorem test_pkRow : (after (exec .pkRow (writeReg .filter 2#32 (tOpen 8#32 0#32 [])))).map
    (fun t => (t.comp.cmpIn, statusWord t)) = some ([0x02#8], 0x00000003#32) := by decide
/-- V-PK-15: ZERO_WIDTH, and the filter byte is not entered. -/
theorem test_pkRow_refused : (after (exec .pkRow (tOpen 0#32 0#32 []))).map
    (fun t => (t.comp.cmpIn, statusWord t)) = some ([], 0x00000911#32) := by decide
/-- V-PK-5: one background pixel and 7 padding bits end the row. -/
theorem test_pkPix : (after (exec .pkPix (tRow 1#32 0x00FFFFFF#32 [0#8]))).map
    (fun t => (t.comp.cmpIn, t.packer.pkRows, statusWord t)) = some ([0x00#8, 0x80#8], 1#32, 0x00000001#32) := by decide
/-- V-PK-9, its first pixel: a colour that differs from INK in the top byte alone is background. -/
theorem test_pkPix_alpha : (after (exec .pkPix (tRow 8#32 0x7F000000#32 [0#8]))).map
    (fun t => (t.packer.pkAcc, t.packer.pkX)) = some (0x01#8, 1#32) := by decide
/-- V-PK-4. -/
theorem test_pkBits : (after (exec (.pkBits 12#6) (tRow 12#32 0xFFF00000#32 [0#8]))).map
    (fun t => (t.comp.cmpIn, t.packer.pkX)) = some ([0x00#8, 0xFF#8, 0xF0#8], 0#32) := by decide
/-- V-PK-17, from the row's start: 9 bits of a row of 8 are refused and none is packed. -/
theorem test_pkBits_overrun : (after (exec (.pkBits 9#6) (tRow 8#32 0xF8000000#32 [0#8]))).map
    (fun t => (t.packer.pkX, statusWord t)) = some (0#32, 0x00000813#32) := by decide
/-- V-CMP-13: the old output is invalid and the level latched. -/
theorem test_cmpStart : (after (exec .cmpStart (writeReg .level 9#32 tHeld))).map
    (fun t => (statusWord t, t.out.outLen)) = some (0x00090001#32, 0#32) := by decide
/-- V-CMP-16. -/
theorem test_cmpStart_refused : (after (exec .cmpStart (tOpen 0#32 0#32 []))).map statusWord = some 0x00000511#32 := by
  decide
/-- 42_compressor.md R90, with ADLER_VALUE from V-CMP-3. -/
theorem test_cmpWr : (after (exec (.cmpWr 3#3) (tOpen 0#32 0x00616263#32 []))).map
    (fun t => (t.comp.cmpIn, t.comp.cmpCount, adlerValue t)) =
    some ([0x61#8, 0x62#8, 0x63#8], 3#32, 0x024D0127#32) := by decide
/-- V-CMP-19. -/
theorem test_cmpWr_refused : (after (exec (.cmpWr 1#3) (tRow 8#32 0#32 [0#8]))).map
    (fun t => (statusWord t, t.comp.cmpCount)) = some (0x00000613#32, 1#32) := by decide
/-- V-CMP-20. -/
theorem test_cmpFinish_refused : (after (exec .cmpFinish (tRow 8#32 0#32 [0#8]))).map statusWord = some 0x00000613#32 := by
  decide
/-- V-CMP-3 with 4096 bytes of RAM: STATUS, OUT_LEN and the words of the OUT window that V-CMP-14 gives. -/
theorem test_finish : let t := finishWith 4096 (zlibStream 0#4 [0x61#8, 0x62#8, 0x63#8]) (tOpen 0#32 0#32 [])
    statusWord t = 0x00000004#32 ∧ t.out.outLen = 14#32 ∧ windowWord t 0 = 0x78010103#32 ∧
    windowWord t 1 = 0x00FCFF61#32 ∧ windowWord t 2 = 0x6263024D#32 ∧
    windowByte t 12 = 0x01#8 ∧ windowByte t 13 = 0x27#8 := by decide
/-- 42_compressor.md R91: a stream of exactly the RAM's size fits, one byte more fails (STATUS as in V-CMP-9b). -/
theorem test_finish_capacity : let s := tOpen 0#32 0#32 []
    statusWord (finishWith 14 (zlibStream 0#4 [0x61#8, 0x62#8, 0x63#8]) s) = 0x00000004#32 ∧
    statusWord (finishWith 13 (zlibStream 0#4 [0x61#8, 0x62#8, 0x63#8]) s) = 0x00000008#32 := by decide

/-! ### The bus -/

/-- V-PK-14, through the step: the command word placed as the next access is executed. -/
theorem test_step_command : (after (step (State.reset.withFetchWord 32 0x20000000))).map
    (fun t => (statusWord t, t.port.pending)) = some (0x00000410#32, []) := by decide
/-- V-CTL-9. -/
theorem test_step_illegal : (after (step (tPend (.write 0x008 .w32 0x13000000#32)))).map statusWord =
    some 0x00000110#32 := by decide
/-- V-CTL-6: the first error is kept. -/
theorem test_first_error : statusWord (raise .illegalOpcode (raise .noRow State.reset)) = 0x00000710#32 := by decide
/-- V-CTL-12. -/
theorem test_reads : [0x000, 0x008, 0x038, 0xFFC].map (fun off => readWord off State.reset) =
    [0x43445001#32, 0x00000000#32, 0x00000000#32, 0x00000000#32] := by decide
/-- V-CTL-14. -/
theorem test_access_write : (after (step { tPend (.write 0x00C .w8 0x55#32) with regs := (tData 0x11223344#32).regs })).map
    (fun t => (statusWord t, t.regs.data)) = some (0x00000A10#32, 0x11223344#32) := by decide
/-- V-CTL-15. -/
theorem test_access_read : (after (step (tPend (.read 0x00E .w32)))).map (fun t => (statusWord t, t.port.readLog)) =
    some (0x00000A10#32, [0x00000000#32]) := by decide
/-- V-CTL-16. -/
theorem test_access_cmd : (after (step { tPend (.write 0x009 .w32 0x10000000#32) with crcAcc := 5#32 })).map
    (fun t => (statusWord t, t.crcAcc)) = some (0x00000A10#32, 5#32) := by decide
/-- V-CTL-17: the values LEVEL reads after each write. -/
theorem test_level_rule : (let w := fun (v : Word) s => writeReg .level v s
    let s5 := w 5#32 State.reset
    let s9 := w 9#32 s5
    let s10 := w 10#32 s9
    let sM := w 0xFFFFFFFF#32 s10
    [s5, s9, s10, sM, w 0#32 sM].map (fun s => readReg s .level)) = [5#32, 9#32, 9#32, 9#32, 0#32] := by decide
/-- V-CTL-18: the values FILTER reads after each write. -/
theorem test_filter_rule : [2#32, 3#32, 1#32, 0x100#32, 0x102#32].map
    (fun v => readReg (writeReg .filter v (writeReg .filter 2#32 State.reset)) .filter) =
    [2#32, 0#32, 1#32, 0#32, 0#32] := by decide

/-! ### The functions of the output format -/

/-- V-CRC-5: the check value. -/
theorem test_crc_check : crc32 [0x31#8, 0x32#8, 0x33#8, 0x34#8, 0x35#8, 0x36#8, 0x37#8, 0x38#8, 0x39#8] = 0xCBF43926#32 := by
  decide +kernel
/-- V-CMP-4: the Adler-32 example. -/
theorem test_adler : adler32 [0x57#8, 0x69#8, 0x6B#8, 0x69#8, 0x70#8, 0x65#8, 0x64#8, 0x69#8, 0x61#8] = 0x11E60398#32 := by
  decide
/-- V-CMP-1. -/
theorem test_empty_stream : zlibStream 0#4 [] = emptyStream := by decide
/-- 95_test_vectors.md section 1: the terminator chunk. -/
theorem test_terminator : chunk tagIend [] =
    [0x00#8, 0x00#8, 0x00#8, 0x00#8, 0x49#8, 0x45#8, 0x4E#8, 0x44#8, 0xAE#8, 0x42#8, 0x60#8, 0x82#8] := by decide +kernel
/-- P2: the statements that begin the palette chunk's CRC (the payload's grouping is the host's). -/
theorem test_chunk_statements : (expandPseudo (.chunkCrc tagPlte) ++ crcStmts palettePayload).map stmtEvent =
    [.write 0x008 .w32 0x10000000#32, .write 0x00C .w32 0x504C5445#32, .write 0x008 .w32 0x11000004#32,
      .write 0x00C .w32 0x000000FF#32, .write 0x008 .w32 0x11000004#32,
      .write 0x00C .w32 0x0000FFFF#32, .write 0x008 .w32 0x11000002#32] := by decide
/-- P1: the terminator chunk, its CRC computed and returned by the CRC unit. -/
theorem test_host_chunk : (hostChunk tagIend [] [] State.reset).map (fun r => r.1) =
    some [0x00#8, 0x00#8, 0x00#8, 0x00#8, 0x49#8, 0x45#8, 0x4E#8, 0x44#8, 0xAE#8, 0x42#8, 0x60#8, 0x82#8] := by
  decide +kernel
/-- V-PK-7: the row of the bits 0 101 111111. -/
theorem test_row : rowBytes 0x00#8 [false, true, false, true, true, true, true, true, true, true] =
    [0x00#8, 0x5F#8, 0xC0#8] := by decide
/-- V-DEF-1 to V-DEF-4 and V-DEF-7. -/
theorem test_inflate : inflate [0x03#8, 0x00#8] = some [] ∧ inflate [0x4B#8, 0x04#8, 0x00#8] = some [0x61#8] ∧
    inflate [0x4B#8, 0x4C#8, 0x4A#8, 0x06#8, 0x00#8] = some [0x61#8, 0x62#8, 0x63#8] ∧
    inflate [0x4B#8, 0x4C#8, 0x84#8, 0x01#8, 0x00#8] = some (List.replicate 10 0x61#8) ∧
    inflate [0x01#8, 0x00#8, 0x00#8, 0xFF#8, 0xFF#8] = some [] := by decide +kernel
/-- V-DEF-6: the greatest extra value of length symbol 284. -/
theorem test_inflate_284 :
    inflate [0x63#8, 0x60#8, 0x18#8, 0xF1#8, 0x00#8, 0x00#8] = some (List.replicate 259 0x00#8) := by decide +kernel
/-- A dynamic block: the spec has no vector of one, so this body and its output are the reference zlib library's. -/
theorem test_inflate_dynamic :
    inflate [0x15#8, 0xC2#8, 0x01#8, 0x0D#8, 0x00#8, 0x00#8, 0x0C#8, 0xC3#8,
      0xA0#8, 0x4A#8, 0xC7#8, 0xF9#8, 0x9E#8, 0x13#8, 0x28#8, 0x7E#8, 0x6D#8, 0x2C#8, 0x1D#8] =
      some [0x80#8, 0x80#8, 0x00#8, 0x00#8, 0x80#8, 0x80#8, 0x00#8, 0x80#8, 0x80#8, 0x00#8,
        0x00#8, 0x00#8, 0xFF#8, 0xFF#8, 0x80#8, 0x80#8, 0xFF#8, 0x00#8, 0x80#8, 0x00#8] := by decide +kernel
/-- V-DEF-8 to V-DEF-12. -/
theorem test_inflate_fails : inflate [0x07#8, 0x00#8] = none ∧ inflate [0x00#8, 0x00#8, 0x00#8, 0x00#8, 0x00#8] = none ∧
    inflate [0x01#8, 0x01#8, 0x00#8, 0xFF#8, 0xFF#8, 0x00#8] = none ∧ inflate [0x03#8, 0x00#8, 0x01#8] = none ∧
    inflate [0x03#8, 0x80#8] = none := by decide +kernel

/-! ### Witnesses: concrete states and operands that meet the hypotheses of the statements, clause by clause at the
boundary values of their ranges -/

theorem witness_DecodeEncodeAgree : (Instr.pkBits 32#6).wellFormed = true ∧ encode (.pkBits 32#6) = 0x22000020#32 := by
  decide

/-- One word for each clause about the word alone: opcode, reserved bits of the three formats, bad counts at both ends of
the two ranges, and a legal word of each format. -/
theorem witness_DecodingStepsInOrder :
    decode 0x03000000#32 = .error .illegalOpcode ∧ decode 0x33000000#32 = .error .illegalOpcode ∧
    (0x32800000#32 : Word).extractLsb' 0 24 ≠ 0 ∧ decode 0x32800000#32 = .error .reservedArg ∧
    (0x11000009#32 : Word).extractLsb' 3 21 ≠ 0 ∧ decode 0x11000009#32 = .error .reservedArg ∧
    (0x22000061#32 : Word).extractLsb' 6 18 ≠ 0 ∧ decode 0x22000061#32 = .error .reservedArg ∧
    decode 0x31000000#32 = .error .badCount ∧ decode 0x31000005#32 = .error .badCount ∧
    decode 0x22000000#32 = .error .badCount ∧ decode 0x22000021#32 = .error .badCount ∧
    decode 0x12000000#32 = .ok .crcOut ∧ decode 0x11000001#32 = .ok (.crcUpd 1#3) ∧
    decode 0x31000004#32 = .ok (.cmpWr 4#3) ∧ decode 0x22000001#32 = .ok (.pkBits 1#6) ∧
    (tPend (.write 0x008 .w32 0x22000001#32)).port.pending = [.write 0x008 .w32 0x22000001#32] := by decide

theorem witness_MatchMaskRowsDecode :
    decode 0x11000004#32 = .ok (.crcUpd 4#3) ∧ 0x11000004#32 &&& rowMask (.crcUpd 1#3) = rowMatch (.crcUpd 1#3) ∧
    rowMask (.crcUpd 1#3) = 0xFFFFFFF8#32 ∧ ((0x11000004#32 : Word).extractLsb' 0 3).toNat ≤ 4 ∧
    0x22000020#32 &&& rowMask (.pkBits 1#6) = rowMatch (.pkBits 1#6) ∧ rowMask (.pkBits 1#6) = 0xFFFFFFC0#32 ∧
    ((0x22000020#32 : Word).extractLsb' 0 6).toNat ≤ 32 := by decide

/-- The last clause: a word that matches no row. -/
theorem witness_MatchMaskRowsDecode_none : ∀ i : Instr, 0xFF000000#32 &&& rowMask i ≠ rowMatch i := by
  intro i; cases i <;> simp only [rowMask, rowMatch] <;> decide

theorem witness_DataBytesLowBytesFirstHighest :
    (0x12345678#32 : Word).toNat % 2 ^ (8 * 1) = (0xFFFFFF78#32 : Word).toNat % 2 ^ (8 * 1) ∧
    dataBytes 1 0x12345678#32 = [0x78#8] ∧ dataBytes 4 0x12345678#32 = [0x12#8, 0x34#8, 0x56#8, 0x78#8] := by decide

theorem witness_DataBitsTopBitsFirstHighest :
    (0x80000000#32 : Word).toNat / 2 ^ (32 - 1) = (0xFFFFFFFF#32 : Word).toNat / 2 ^ (32 - 1) ∧
    dataBits 1 0x80000000#32 = [true] ∧ (dataBits 32 0x00000001#32)[31]? = some true := by decide

theorem witness_StepRunsDecodedCommand :
    (tPend (.write 0x008 .w32 0x21000000#32)).port.pending = [.write 0x008 .w32 0x21000000#32] ∧
    decode 0x21000000#32 = .ok .pkPix ∧ decode 0x21000001#32 = .error .reservedArg ∧
    decode (commandWord 32 0x21000000) = .ok .pkPix := by decide

theorem witness_IdleWithoutAccess : State.reset.port.pending = [] := rfl

/-- A read just past the aperture stops, and one of its last word does not. -/
theorem witness_StepStopsOnlyOutsideAperture :
    inAperture (0x1000 + Config.outRamBytes) = false ∧ inAperture (0x1000 + Config.outRamBytes - 4) = true ∧
    (0x1000 + Config.outRamBytes - 4) % 4 = 0 := by
  have := outRamBytes_bounds
  refine ⟨Bool.eq_false_iff.2 fun h => ?_, (inAperture_iff _).2 (by omega), by omega⟩
  exact absurd ((inAperture_iff _).1 h) (by omega)

/-- The hypotheses of `RefusesReservedArg` for the three opcodes it is stated of. -/
theorem witness_RefusesReservedArg :
    (0x00000001#32 : Word).extractLsb' 24 8 = 0x00#8 ∧ (0x00000001#32 : Word).extractLsb' 0 24 ≠ 0 ∧
    (0x02800000#32 : Word).extractLsb' 24 8 = 0x02#8 ∧ (0x02800000#32 : Word).extractLsb' 0 24 ≠ 0 ∧
    (0x10FFFFFF#32 : Word).extractLsb' 24 8 = 0x10#8 ∧ (0x10FFFFFF#32 : Word).extractLsb' 0 24 ≠ 0 ∧
    (tPend (.write 0x008 .w32 0x00000001#32)).port.pending = [.write 0x008 .w32 0x00000001#32] := by decide

theorem witness_ClrerrClearsRecordOnly :
    State.reset.error = { err := false, errCode := 0x00#8 } ∧ (raise .noRow State.reset).error.err = true := by decide

theorem witness_ControlCommandsFrame :
    (after (exec .nop (tRow 8#32 0#32 [0#8]))).isSome = true ∧ (after (exec .clrerr (tRow 8#32 0#32 [0#8]))).isSome = true :=
  by decide

theorem witness_CrcUpdResult : 1 ≤ (1#3 : BitVec 3).toNat ∧ (4#3 : BitVec 3).toNat ≤ 4 ∧ (0#3 : BitVec 3).toNat = 0 ∧
    4 < (5#3 : BitVec 3).toNat := by decide

/-- Both clauses: a held stream with its bytes, and no stream held. -/
theorem witness_CrcOutResult : tHeld.comp.cmpOpen = false ∧ emptyStream.length = tHeld.out.outLen.toNat ∧
    (∀ i, i < emptyStream.length → tHeld.out.outRam.read i = emptyStream[i]?) ∧ State.reset.out.outLen = 0#32 := by decide +kernel

theorem witness_CrcValueAnyGrouping : ∀ c ∈ [((0x0049454E#32 : Word), (3#3 : BitVec 3)), (0x44#32, 1#3), (0#32, 4#3)],
    1 ≤ c.2.toNat ∧ c.2.toNat ≤ 4 := by simp

theorem witness_CrcCommandsFrame : (after (exec .crcInit tHeld)).isSome = true ∧ (after (exec .crcOut tHeld)).isSome = true ∧
    (after (exec (.crcUpd 4#3) tHeld)).isSome = true := by decide

theorem witness_PkRowResult : (tOpen 1#32 0#32 []).comp.cmpOpen = true ∧ (tOpen 1#32 0#32 []).packer.pkActive = false ∧
    (tOpen 1#32 0#32 []).regs.width ≠ 0#32 := by decide

/-- The four clauses: neither a full byte nor the row's end, a full byte, the row's end, both. -/
theorem witness_PushBitEffect :
    let p := fun (w x : Word) (n : BitVec 3) => ({ Packer.reset with pkActive := true, pkW := w, pkX := x, pkNbits := n } : Packer)
    (¬ (p 8#32 0#32 0#3).pkNbits.toNat + 1 = 8 ∧ ¬ (p 8#32 0#32 0#3).pkX + 1 = (p 8#32 0#32 0#3).pkW) ∧
    ((p 16#32 7#32 7#3).pkNbits.toNat + 1 = 8 ∧ ¬ (p 16#32 7#32 7#3).pkX + 1 = (p 16#32 7#32 7#3).pkW) ∧
    (¬ (p 1#32 0#32 0#3).pkNbits.toNat + 1 = 8 ∧ (p 1#32 0#32 0#3).pkX + 1 = (p 1#32 0#32 0#3).pkW) ∧
    ((p 8#32 7#32 7#3).pkNbits.toNat + 1 = 8 ∧ (p 8#32 7#32 7#3).pkX + 1 = (p 8#32 7#32 7#3).pkW) := by decide

theorem witness_PkPixResult : (tRow 8#32 0xFF000000#32 []).packer.pkActive = true ∧
    (tRow 8#32 0xFF000000#32 []).regs.data = (tRow 8#32 0xFF000000#32 []).regs.ink ∧
    (tRow 8#32 0x7F000000#32 []).regs.data ≠ (tRow 8#32 0x7F000000#32 []).regs.ink := by decide

/-- A count that ends exactly at the row's end, and one past it. -/
theorem witness_PkBitsResult : (tRow 8#32 0#32 []).packer.pkActive = true ∧
    (tRow 8#32 0#32 []).packer.pkX.toNat ≤ (tRow 8#32 0#32 []).packer.pkW.toNat ∧
    (tRow 8#32 0#32 []).packer.pkX.toNat + (8#6 : BitVec 6).toNat ≤ (tRow 8#32 0#32 []).packer.pkW.toNat ∧
    (tRow 8#32 0#32 []).packer.pkX.toNat + (9#6 : BitVec 6).toNat > (tRow 8#32 0#32 []).packer.pkW.toNat := by decide

/-- The pixels of V-PK-7: PK_PIX, then PK_BITS 3 and PK_BITS 6, for a row of 10. -/
def mixedRow : List (Word × Instr) := [(0xFF000000#32, .pkPix), (0xA0000000#32, .pkBits 3#6), (0xFC000000#32, .pkBits 6#6)]

theorem witness_RowFedByAnyMixIsRow : (tOpen 10#32 0#32 []).comp.cmpOpen = true ∧
    (tOpen 10#32 0#32 []).packer.pkActive = false ∧ (tOpen 10#32 0#32 []).regs.width ≠ 0#32 ∧
    (∀ c ∈ mixedRow, packsPixels c.2 = true) ∧
    (mixedRow.flatMap (pixelBits (tOpen 10#32 0#32 []).regs.ink)).length = (tOpen 10#32 0#32 []).regs.width.toNat := by
  decide

theorem witness_PackerCommandsFrame : (after (exec .pkRow (tOpen 8#32 0#32 []))).isSome = true ∧
    (after (exec .pkPix (tRow 8#32 0#32 []))).isSome = true ∧ (after (exec (.pkBits 8#6) (tRow 8#32 0#32 []))).isSome = true :=
  by decide

theorem witness_CmpStartResult : tHeld.comp.cmpOpen = false := rfl

theorem witness_CmpWrResult : 1 ≤ (1#3 : BitVec 3).toNat ∧ (4#3 : BitVec 3).toNat ≤ 4 ∧
    (tOpen 0#32 0#32 [0x61#8]).comp.cmpOpen = true ∧ (tOpen 0#32 0#32 [0x61#8]).packer.pkActive = false ∧
    ((tOpen 0#32 0#32 [0x61#8]).comp.adlerA, (tOpen 0#32 0#32 [0x61#8]).comp.adlerB) =
      adlerSums (tOpen 0#32 0#32 [0x61#8]).comp.cmpIn := by decide

/-- The empty stream of 11 bytes fits every admitted RAM. -/
theorem witness_CmpFinishStoresResult : (tOpen 0#32 0#32 []).comp.cmpOpen = true ∧
    (tOpen 0#32 0#32 []).packer.pkActive = false ∧
    (zlibStream (tOpen 0#32 0#32 []).comp.cmpLevel (tOpen 0#32 0#32 []).comp.cmpIn).length ≤ Config.outRamBytes :=
  ⟨rfl, rfl, Nat.le_trans (by decide) outRamBytes_bounds.1⟩

/-- A stream open at level 0 with `n` bytes of input. -/
def tLong (n : Nat) : State :=
  { State.reset with comp := { Compressor.reset with cmpOpen := true, cmpIn := List.replicate n 0#8 } }

/-- Its result is longer than its input. -/
theorem lt_length_tLong (n : Nat) : n < (zlibStream (tLong n).comp.cmpLevel (tLong n).comp.cmpIn).length := by
  have hb : ∀ x : List Byte, x.length < (zlibStream 0#4 x).length := fun x => by
    have h : x.length + 5 ≤ (stored x).length := storedBlocks_length _ _ (Nat.lt_succ_self _)
    have hs : bodyWith Config.deflateImpl 0#4 x = stored x := if_pos rfl
    rw [zlibStream, zlibStreamWith, hs, List.length_append, List.length_append]
    omega
  have h := hb (List.replicate n 0#8)
  rw [List.length_replicate] at h
  exact h

/-- 2^20 bytes of input are more than any admitted RAM holds. -/
theorem witness_CompressionFailureIsNoError : (tLong (2 ^ 20)).comp.cmpOpen = true ∧
    (tLong (2 ^ 20)).packer.pkActive = false ∧
    Config.outRamBytes < (zlibStream (tLong (2 ^ 20)).comp.cmpLevel (tLong (2 ^ 20)).comp.cmpIn).length :=
  ⟨rfl, rfl, Nat.lt_of_le_of_lt outRamBytes_bounds.2.1 (lt_length_tLong _)⟩

/-- Two engines that differ in their registers and their CRC. -/
theorem witness_ResultDependsOnLevelAndInput :
    let s := tOpen 8#32 0#32 [0x61#8]
    let t := { tOpen 16#32 5#32 [0x61#8] with crcAcc := 7#32 }
    s.comp.cmpOpen = true ∧ t.comp.cmpOpen = true ∧ s.packer.pkActive = false ∧ t.packer.pkActive = false ∧
      s.comp.cmpLevel = t.comp.cmpLevel ∧ s.comp.cmpIn = t.comp.cmpIn := by decide

theorem witness_CompressorCommandsFrame : (after (exec .cmpStart tHeld)).isSome = true ∧
    (after (exec (.cmpWr 4#3) (tOpen 0#32 0#32 []))).isSome = true ∧
    (after (exec .cmpFinish (tOpen 0#32 0#32 []))).isSome = true := by
  refine ⟨by decide, by decide, rfl⟩

theorem witness_StoredBlockPartition : [0x00#8] ≠ ([] : List Byte) ∧ sizeLawInput.length = 1984 := by decide +kernel

theorem witness_ZlibHeaderByLevel : (1#4 : BitVec 4).toNat ≤ 1 ∧ 2 ≤ (2#4 : BitVec 4).toNat ∧ (5#4 : BitVec 4).toNat ≤ 5 ∧
    (6#4 : BitVec 4).toNat = 6 ∧ 7 ≤ (7#4 : BitVec 4).toNat ∧ (9#4 : BitVec 4).toNat ≤ 9 := by decide

/-- The body of V-CMP-10. -/
def sampleBody : List Byte :=
  [0x63#8, 0xF8#8, 0x8F#8, 0x17#8, 0x30#8, 0x8C#8, 0x4A#8, 0x8F#8, 0x4A#8, 0x8F#8, 0x4A#8, 0x8F#8, 0x4A#8, 0x8F#8,
    0x4A#8, 0x8F#8, 0x4A#8, 0x8F#8, 0x4A#8, 0x0F#8, 0x3E#8, 0x69#8, 0x00#8]

/-- V-CMP-10: the body of the level 9 sample inflates to the packed rows of the image. -/
theorem test_inflate_sample : inflate sampleBody = some sizeLawInput := by decide +kernel

/-- A conforming `DEFLATE_IMPL`: the sample body for the image of 42_compressor.md R99 at level 9, stored blocks
otherwise. -/
def sampleImpl (level : BitVec 4) (x : List Byte) : List Byte :=
  if level = 9#4 ∧ x = sizeLawInput then sampleBody else stored x

/-- A function that meets the laws: the hypothesis of FinishedStreamIsValid, BackgroundImageSizes and
ContainerOfBackgroundImage. -/
theorem witness_DeflateLaws : DeflateLaws sampleImpl := by
  refine ⟨fun level x _ _ => ?_, ?_⟩
  · unfold sampleImpl
    split_ifs with h
    · rw [h.2]; exact test_inflate_sample
    · exact inflate_stored x
  · have h : sampleImpl 9#4 sizeLawInput = sampleBody := if_pos ⟨rfl, rfl⟩
    have hb : bodyWith sampleImpl 9#4 sizeLawInput = sampleBody := by
      unfold bodyWith; rw [if_neg (by decide)]; exact h
    unfold zlibStreamWith
    rw [hb]
    simp only [List.length_append]
    decide

/-- A stream held, another with the record set, and one state for each check. -/
theorem witness_ErrorRecordDoesNotBlock : State.reset.error.err = false ∧ (raise .access State.reset).error.err = true := by
  decide

theorem witness_StateChecksInOrder :
    (tOpen 0#32 0#32 []).comp.cmpOpen = true ∧ ¬ State.reset.comp.cmpOpen = true ∧
    ((tRow 8#32 0#32 []).comp.cmpOpen = true ∧ (tRow 8#32 0#32 []).packer.pkActive = true) ∧
    ((tOpen 0#32 0#32 []).comp.cmpOpen = true ∧ ¬ (tOpen 0#32 0#32 []).packer.pkActive = true ∧
      (tOpen 0#32 0#32 []).regs.width = 0#32) ∧
    ((0#6 : BitVec 6).toNat = 0 ∧ 32 < (33#6 : BitVec 6).toNat) ∧
    ((9#6 : BitVec 6).toNat > (tRow 8#32 0#32 []).packer.pkW.toNat - (tRow 8#32 0#32 []).packer.pkX.toNat) ∧
    ((0#3 : BitVec 3).toNat = 0 ∧ 4 < (5#3 : BitVec 3).toNat) := by decide

/-- A refused command after an error, and the three events that may clear the record. -/
theorem witness_ErrorRecordIsSticky :
    let s := fun e => raise .noRow (tPend e)
    (after (step (s (.write 0x008 .w32 0x21000000#32)))).map (fun t => t.error) = some (s .powerOnReset).error ∧
    (s .powerOnReset).error.err = true ∧ (after (step (s .powerOnReset))).isSome = true ∧
    (after (step (s (.write 0x008 .w32 0x01000000#32)))).isSome = true ∧
    (after (step (s (.write 0x008 .w32 0x02000000#32)))).isSome = true := by decide

/-- The first offset of the aperture, and the last word of the OUT window. -/
theorem witness_ReadHasNoSideEffect : (tPend (.read 0x000 .w32)).port.pending = [.read 0x000 .w32] ∧ 0x000 % 4 = 0 ∧
    0x000 < 0x1000 + Config.outRamBytes ∧ (0x1000 + Config.outRamBytes - 4) % 4 = 0 ∧
    0x1000 + Config.outRamBytes - 4 < 0x1000 + Config.outRamBytes := by
  have := outRamBytes_bounds
  exact ⟨rfl, rfl, by omega, by omega, by omega⟩

/-- A width that is not 32 bits, and an offset that is not aligned, the last one of the aperture. -/
theorem witness_AccessErrorEffect : 0x008 < 0x1000 + Config.outRamBytes ∧ Width.w64 ≠ Width.w32 ∧
    0x1000 + Config.outRamBytes - 1 < 0x1000 + Config.outRamBytes ∧ (0x1000 + Config.outRamBytes - 1) % 4 ≠ 0 ∧
    (tPend (.write 0x008 .w64 0#32)).port.pending = [.write 0x008 .w64 0#32] ∧
    (tPend (.read 0x008 .w64)).port.pending = [.read 0x008 .w64] := by
  have := outRamBytes_bounds
  exact ⟨by omega, by decide, by omega, by omega, rfl, rfl⟩

/-- Each clause: the offsets, the greatest value LEVEL and FILTER accept and the least they do not, and offsets without a
writable register in each part of the aperture. -/
theorem witness_RegisterWriteEffect :
    (tPend (.write 0x010 .w32 9#32)).port.pending = [.write 0x010 .w32 9#32] ∧ 0x010 % 4 = 0 ∧
    0x01C < 0x1000 + Config.outRamBytes ∧ (9#32 : Word).toNat ≤ 9 ∧ 9 < (10#32 : Word).toNat ∧
    (2#32 : Word).toNat ≤ Config.filterLast ∧ Config.filterLast < (3#32 : Word).toNat ∧
    0x000 ∉ [0x008, 0x00C, 0x010, 0x014, 0x018, 0x01C] ∧ 0x038 ∉ [0x008, 0x00C, 0x010, 0x014, 0x018, 0x01C] ∧
    0x1000 ∉ [0x008, 0x00C, 0x010, 0x014, 0x018, 0x01C] ∧ 0x1000 < 0x1000 + Config.outRamBytes := by
  have := outRamBytes_bounds
  exact ⟨rfl, rfl, by omega, by decide, by decide, by decide, by decide, by decide, by decide, by decide, by omega⟩

/-- A read of each register's offset; ID is the first of the map, ADLER_VALUE the last. -/
theorem witness_RegisterReadValues : allRegs.map regOffset =
    [0x000, 0x004, 0x008, 0x00C, 0x010, 0x014, 0x018, 0x01C, 0x020, 0x024, 0x028, 0x02C, 0x030, 0x034] ∧
    (tPend (.read 0x034 .w32)).port.pending = [.read 0x034 .w32] := by decide

/-- The last byte of the held stream, byte 10, in word 2. -/
theorem witness_OutWindowIsBigEndian : (tHeld.setPort { pending := [.read (0x1000 + 4 * (10 / 4)) .w32], readLog := [], draw := 0 }).port.pending =
      [.read (0x1000 + 4 * (10 / 4)) .w32] ∧
    tHeld.out.outValid = true ∧ 10 < tHeld.out.outLen.toNat ∧ tHeld.out.outLen.toNat ≤ Config.outRamBytes ∧
    tHeld.out.outRam.read 10 = some 0x01#8 := by
  refine ⟨rfl, rfl, by decide, Nat.le_trans (by decide) outRamBytes_bounds.1, by decide⟩

theorem witness_ReservedOffsetsReadZeroIgnoreWrites : 0x038 ≤ 0xFFC ∧ 0x038 % 4 = 0 ∧ 0xFFC % 4 = 0 ∧
    (tPend (.read 0xFFC .w32)).port.pending = [.read 0xFFC .w32] ∧
    (tPend (.write 0x038 .w32 1#32)).port.pending = [.write 0x038 .w32 1#32] := by decide

/-- The first and the last address of the aperture, and the first one past it. -/
theorem witness_HostAddressDecode :
    (Config.base ≤ Config.base ∧ Config.base < Config.base + 0x1000 + Config.outRamBytes) ∧
    (Config.base ≤ Config.base + 0x1000 + Config.outRamBytes - 1 ∧
      Config.base + 0x1000 + Config.outRamBytes - 1 < Config.base + 0x1000 + Config.outRamBytes) ∧
    Config.base + 0x1000 + Config.outRamBytes ≤ Config.base + 0x1000 + Config.outRamBytes := by
  omega

theorem witness_PowerOnResetState : (tPend .powerOnReset).port.pending = [.powerOnReset] := rfl

/-- Inside a row of 8, before the last pixel: the invariants hold, and a PK_PIX that ends the row is pending. -/
def tLastPixel : State :=
  { tRow 8#32 0xFFFFFFFF#32 [0#8] with
    packer := { Packer.reset with pkActive := true, pkW := 8#32, pkX := 7#32, pkAcc := 0x55#8, pkNbits := 7#3 }
    port := { pending := [.write 0x008 .w32 0x21000000#32], readLog := [], draw := 0 } }

theorem witness_StepKeepsInvariants : Inv tLastPixel ∧ ∃ t, step tLastPixel = .next t :=
  ⟨⟨⟨by decide, by decide, by decide, by decide, by decide⟩,
    ⟨by decide, by decide, by decide, by decide, by decide⟩, ⟨by decide, by decide⟩,
    ⟨fun h => absurd h (by decide), by decide, by decide, rfl, fun _ h => absurd h (Nat.not_lt_zero _)⟩,
    ⟨by decide, by decide, by decide⟩⟩, ⟨_, rfl⟩⟩

/-- A held stream, and a write to LEVEL pending. -/
def tHeldPend : State := tHeld.setPort { pending := [.write 0x010 .w32 9#32], readLog := [], draw := 0 }

theorem witness_StepKeepsHeldResult : Inv tHeldPend ∧ HoldsResult tHeldPend ∧ ∃ t, step tHeldPend = .next t := by
  have hb := outRamBytes_bounds
  refine ⟨⟨⟨by decide, by decide, by decide, by decide, by decide⟩,
    ⟨by decide, by decide, by decide, by decide, by decide⟩, ⟨by decide, by decide⟩,
    ⟨fun _ => Nat.le_trans (by decide) hb.1, by decide, by decide, ?_, by decide⟩,
    ⟨by decide, by decide, by decide⟩⟩, fun _ => ⟨by decide, by decide⟩, ⟨_, rfl⟩⟩
  exact Memory.within_writeBytes 0 emptyStream rfl (Nat.le_trans (by decide) hb.1)

theorem witness_ConfigurationLatchPoints : Instr.cmpWr 1#3 ≠ .srst ∧ Instr.pkRow ≠ .cmpStart ∧ Instr.cmpStart ≠ .pkRow ∧
    Instr.pkBits 1#6 ≠ .pkPix := by decide

/-- Each flag changes under a command named for it. -/
theorem witness_FlagsChangeOnlyAsListed :
    (after (exec .cmpStart tHeld)).map (fun t => (t.comp.cmpOpen, t.out.outValid)) = some (true, false) ∧
    (after (exec .pkRow (tOpen 8#32 0#32 []))).map (fun t => t.packer.pkActive) = some true ∧
    (after (exec .pkPix (tRow 1#32 0#32 []))).map (fun t => t.packer.pkActive) = some false ∧
    (after (exec .clrerr (raise .noRow State.reset))).map (fun t => t.error.err) = some false ∧
    (after (exec .pkPix State.reset)).map (fun t => t.error.err) = some true := by decide

theorem witness_HostEncodeYieldsContainer : State.reset.comp.cmpOpen = false ∧ State.reset.packer.pkActive = false ∧
    (9#32 : Word).toNat ≤ 9 ∧ (8#32 : Word) ≠ 0#32 := by decide

end Sys2Proof.Tests
end

section
/-! PROOFS. 20_memory.md: accesses at the reserved offsets of the aperture (R42). -/

namespace Sys2Proof.Proofs
open Sys2Proof Sys2Proof.Machine

/-- The register map ends below 0x038. -/
theorem regAt_eq_none_of_le {off : Nat} (h : 0x038 ≤ off) : regAt off = none :=
  regAt_eq_none fun r => by have := regOffset_lt r; omega

/-- Below the OUT window and past the register map there is nothing to read. -/
theorem readWord_reserved {off : Nat} (hreg : 0x038 ≤ off) (hwin : off < windowBase) (s : State) :
    readWord off s = 0x00000000#32 := by
  rw [readWord, regAt_eq_none_of_le hreg]
  exact if_pos hwin

/-- Only a read of the OUT window draws a free value. -/
theorem readDraws_eq_false_of_lt {off : Nat} (hwin : off < windowBase) (s : State) : readDraws off s = false := by
  simp [readDraws, hwin]

theorem busRead_reserved {off : Nat} (hreg : 0x038 ≤ off) (hwin : off < windowBase) (h4 : off % 4 = 0) (s : State) :
    busRead off .w32 s = returnValue 0x00000000#32 s := by
  rw [busRead, if_pos ((isWordAccess_iff off .w32).2 ⟨rfl, h4⟩), readWord_reserved hreg hwin,
    readDraws_eq_false_of_lt hwin, if_neg Bool.false_ne_true]

/-- Settles O52: no register and no byte of the OUT window stands at a reserved offset, so the read returns 0 without
drawing a free value, and the write is the ignored one. -/
theorem reservedOffsetsReadZeroIgnoreWrites : Obligations.ReservedOffsetsReadZeroIgnoreWrites := by
  intro s off rest hreg hlast h4
  have hwin : off < windowBase := by simp only [windowBase]; omega
  have hin : inAperture off = true := inAperture_of_lt hwin
  constructor
  · intro hp
    rw [step_read hp hin, busRead_reserved hreg hwin h4]
  · intro v hp
    exact step_write_ignored hp hin h4 (regAt_eq_none_of_le hreg)

end Sys2Proof.Proofs
end

section
/-! PROOFS. 30_encoding.md: the decoding steps (R60), the operands taken from DATA (R61, R62) and the word examples (R65). -/

namespace Sys2Proof.Proofs
open Sys2Proof Sys2Proof.Machine

/-! ### The opcode map, by format -/

/-- The commands of format Z by opcode (R58). -/
def zCommands : List (Nat × Instr) :=
  [(0x00, .nop), (0x01, .srst), (0x02, .clrerr), (0x10, .crcInit), (0x12, .crcOut), (0x20, .pkRow), (0x21, .pkPix),
    (0x30, .cmpStart), (0x32, .cmpFinish)]

/-- The opcodes of format Z. -/
def zOpcodes : List Nat := [0x00, 0x01, 0x02, 0x10, 0x12, 0x20, 0x21, 0x30, 0x32]

/-- The opcodes of format N4. -/
def n4Opcodes : List Nat := [0x11, 0x31]

theorem opcodeRow_of_mem_zOpcodes {opc : Byte} (h : opc.toNat ∈ zOpcodes) :
    ∃ i, zCommands.lookup opc.toNat = some i ∧ opcodeRow opc = some (.z i) := by
  simp only [zOpcodes, List.mem_cons, List.not_mem_nil, or_false] at h
  rcases h with h | h | h | h | h | h | h | h | h <;> exact ⟨_, by rw [h]; rfl, by simp only [opcodeRow, h]⟩

theorem opcodeRow_crcUpd {opc : Byte} (h : opc.toNat = 0x11) : opcodeRow opc = some (.n4 .crcUpd) := by
  simp only [opcodeRow, h]

theorem opcodeRow_cmpWr {opc : Byte} (h : opc.toNat = 0x31) : opcodeRow opc = some (.n4 .cmpWr) := by
  simp only [opcodeRow, h]

theorem opcodeRow_pkBits {opc : Byte} (h : opc.toNat = 0x22) : opcodeRow opc = some (.n32 .pkBits) := by
  simp only [opcodeRow, h]

theorem opcodeRow_of_mem_n4Opcodes {opc : Byte} (h : opc.toNat ∈ n4Opcodes) : ∃ mk, opcodeRow opc = some (.n4 mk) := by
  simp only [n4Opcodes, List.mem_cons, List.not_mem_nil, or_false] at h
  rcases h with h | h
  · exact ⟨_, opcodeRow_crcUpd h⟩
  · exact ⟨_, opcodeRow_cmpWr h⟩

theorem opcodeRow_of_no_format {opc : Byte} (hz : opc.toNat ∉ zOpcodes) (h4 : opc.toNat ∉ n4Opcodes)
    (h32 : opc.toNat ≠ 0x22) : opcodeRow opc = none := by
  simp only [zOpcodes, n4Opcodes, List.mem_cons, List.not_mem_nil, or_false, not_or] at hz h4
  unfold opcodeRow
  split
  case h_13 => rfl
  all_goals omega

/-! ### One decoding step after the other: the reserved bits, then the count -/

section
variable {w : Word} {mk4 : BitVec 3 → Instr} {mk32 : BitVec 6 → Instr}

theorem decode_n4_reserved (h : opcodeRow (fieldOpc w) = some (.n4 mk4)) (hr : fieldRsvN4 w ≠ 0) :
    decode w = .error .reservedArg := by
  rw [decode_of_n4 h, if_pos hr]

theorem decode_n4_badCount (h : opcodeRow (fieldOpc w) = some (.n4 mk4)) (hr : fieldRsvN4 w = 0)
    (hn : (fieldN4 w).toNat = 0 ∨ 4 < (fieldN4 w).toNat) : decode w = .error .badCount := by
  rw [decode_of_n4 h, if_neg (not_not_intro hr), if_pos ((badCountN4_iff _).2 hn)]

theorem decode_n4_ok (h : opcodeRow (fieldOpc w) = some (.n4 mk4)) (hr : fieldRsvN4 w = 0)
    (h1 : 1 ≤ (fieldN4 w).toNat) (h4 : (fieldN4 w).toNat ≤ 4) : decode w = .ok (mk4 (fieldN4 w)) := by
  have hn : ¬ badCountN4 (fieldN4 w) = true := by rw [badCountN4_iff]; omega
  rw [decode_of_n4 h, if_neg (not_not_intro hr), if_neg hn]

theorem decode_n32_reserved (h : opcodeRow (fieldOpc w) = some (.n32 mk32)) (hr : fieldRsvN32 w ≠ 0) :
    decode w = .error .reservedArg := by
  rw [decode_of_n32 h, if_pos hr]

theorem decode_n32_badCount (h : opcodeRow (fieldOpc w) = some (.n32 mk32)) (hr : fieldRsvN32 w = 0)
    (hn : (fieldN32 w).toNat = 0 ∨ 32 < (fieldN32 w).toNat) : decode w = .error .badCount := by
  rw [decode_of_n32 h, if_neg (not_not_intro hr), if_pos ((badCountN32_iff _).2 hn)]

theorem decode_n32_ok (h : opcodeRow (fieldOpc w) = some (.n32 mk32)) (hr : fieldRsvN32 w = 0)
    (h1 : 1 ≤ (fieldN32 w).toNat) (h32 : (fieldN32 w).toNat ≤ 32) : decode w = .ok (mk32 (fieldN32 w)) := by
  have hn : ¬ badCountN32 (fieldN32 w) = true := by rw [badCountN32_iff]; omega
  rw [decode_of_n32 h, if_neg (not_not_intro hr), if_neg hn]

theorem decode_z_reserved (h : (fieldOpc w).toNat ∈ zOpcodes) (hr : fieldRsvZ w ≠ 0) :
    decode w = .error .reservedArg := by
  obtain ⟨i, -, hrow⟩ := opcodeRow_of_mem_zOpcodes h
  rw [decode_of_z hrow, if_pos hr]

theorem decode_z_ok (h : (fieldOpc w).toNat ∈ zOpcodes) (hr : fieldRsvZ w = 0) :
    zCommands.lookup (fieldOpc w).toNat = (decode w).toOption := by
  obtain ⟨i, hi, hrow⟩ := opcodeRow_of_mem_zOpcodes h
  rw [decode_of_z hrow, if_neg (not_not_intro hr), hi]
  rfl

end

/-! ### The write of a command word to CMD -/

/-- A step that takes up the write of a word that is no command is the refusal of that word. -/
theorem step_cmdWrite_error {s : State} {w : Word} {rest : List Event} {e : ErrorName}
    (hp : s.port.pending = cmdWrite w :: rest) (hd : decode w = .error e) :
    step s = .next (raise e (takeEvent rest s)) := by
  simp only [step, accept_cmdWrite hp, busCommand, hd]

/-- A step that takes up the write of a legal command word executes the command. -/
theorem step_cmdWrite_ok {s : State} {w : Word} {rest : List Event} {i : Instr}
    (hp : s.port.pending = cmdWrite w :: rest) (hd : decode w = .ok i) : step s = exec i (takeEvent rest s) := by
  simp only [step, accept_cmdWrite hp, busCommand, hd]

/-- Settles O2: the opcode selects the row of the map, and with it the format whose reserved bits and count are looked at
next; the step of the write to CMD follows the outcome of `decode`. -/
theorem decodingStepsInOrder : Obligations.DecodingStepsInOrder := by
  intro w opc isZ isN4 isN32 n4 n32
  refine ⟨?illegal, ?reservedZ, ?reservedN4, ?reservedN32, ?badCountN4, ?badCountN32, ?okZ, ?okCrcUpd, ?okCmpWr,
    ?okPkBits, ?cmdWrite⟩
  case illegal =>
    rintro ⟨hz, h4, h32⟩
    exact decode_of_illegal (opcodeRow_of_no_format hz h4 h32)
  case reservedZ =>
    rintro ⟨h, hr⟩
    exact decode_z_reserved h hr
  case reservedN4 =>
    rintro ⟨h, hr⟩
    obtain ⟨mk, hrow⟩ := opcodeRow_of_mem_n4Opcodes h
    exact decode_n4_reserved hrow hr
  case reservedN32 =>
    rintro ⟨h, hr⟩
    exact decode_n32_reserved (opcodeRow_pkBits h) hr
  case badCountN4 =>
    rintro ⟨h, hr, hn⟩
    obtain ⟨mk, hrow⟩ := opcodeRow_of_mem_n4Opcodes h
    exact decode_n4_badCount hrow hr hn
  case badCountN32 =>
    rintro ⟨h, hr, hn⟩
    exact decode_n32_badCount (opcodeRow_pkBits h) hr hn
  case okZ =>
    rintro ⟨h, hr⟩
    exact decode_z_ok h hr
  case okCrcUpd =>
    rintro ⟨h, hr, h1, h4⟩
    exact decode_n4_ok (opcodeRow_crcUpd h) hr h1 h4
  case okCmpWr =>
    rintro ⟨h, hr, h1, h4⟩
    exact decode_n4_ok (opcodeRow_cmpWr h) hr h1 h4
  case okPkBits =>
    rintro ⟨h, hr, h1, h32⟩
    exact decode_n32_ok (opcodeRow_pkBits h) hr h1 h32
  case cmdWrite =>
    intro s rest hp
    exact ⟨fun e => step_cmdWrite_error hp, fun i => step_cmdWrite_ok hp⟩

/-! ### The operands taken from DATA -/

section
variable (n : Nat) (d : Word)

@[simp] theorem dataBytes_length : (dataBytes n d).length = n := by simp [dataBytes]

@[simp] theorem dataBits_length : (dataBits n d).length = n := by simp [dataBits]

variable {n} {k : Nat} (hk : k < n)
include hk

theorem dataBytes_getElem? : (dataBytes n d)[k]? = some (d.extractLsb' (8 * (n - 1 - k)) 8) := by simp [dataBytes, hk]

theorem dataBits_getElem? : (dataBits n d)[k]? = some (d.getLsbD (31 - k)) := by simp [dataBits, hk]

end

/-- `DataBytes(N)` reads only the low `8 * N` bits of DATA. -/
theorem dataBytes_congr {n : Nat} {d d' : Word} (h : d.toNat % 2 ^ (8 * n) = d'.toNat % 2 ^ (8 * n)) :
    dataBytes n d = dataBytes n d' := by
  refine List.map_congr_left fun k hk => BitVec.eq_of_getLsbD_eq fun i hi => ?_
  have hbit : 8 * (n - 1 - k) + i < 8 * n := by have := List.mem_range.1 hk; omega
  have hsame := congrArg (Nat.testBit · (8 * (n - 1 - k) + i)) h
  simpa [Nat.testBit_mod_two_pow, hbit, hi, BitVec.testBit_toNat] using hsame

/-- `DataBits(N)` reads only the top N bits of DATA. -/
theorem dataBits_congr {n : Nat} {d d' : Word} (hn : n ≤ 32) (h : d.toNat / 2 ^ (32 - n) = d'.toNat / 2 ^ (32 - n)) :
    dataBits n d = dataBits n d' := by
  refine List.map_congr_left fun k hk => ?_
  have hbit : 31 - k = n - 1 - k + (32 - n) := by have := List.mem_range.1 hk; omega
  have hsame := congrArg (Nat.testBit · (n - 1 - k)) h
  simpa [Nat.testBit_div_two_pow, hbit, BitVec.testBit_toNat] using hsame

/-- Settles O5: each byte stands at its place, and none of them lies above the low N. -/
theorem dataBytesLowBytesFirstHighest : Obligations.DataBytesLowBytesFirstHighest :=
  ⟨fun n d _ _ => ⟨dataBytes_length n d, fun _ => dataBytes_getElem? d⟩, fun _ _ _ _ _ => dataBytes_congr,
    fun _ => rfl, by decide, by decide⟩

/-- Settles O6: each bit stands at its place, and none of them lies below bit 32 - N. -/
theorem dataBitsTopBitsFirstHighest : Obligations.DataBitsTopBitsFirstHighest :=
  ⟨fun n d _ _ => ⟨dataBits_length n d, fun _ => dataBits_getElem? d⟩, fun _ _ _ _ hn => dataBits_congr hn, by decide⟩

/-- Settles O3: fixed words, evaluated. -/
theorem wordExamplesDecode : Obligations.WordExamplesDecode := by
  unfold Obligations.WordExamplesDecode
  decide

end Sys2Proof.Proofs
end

section
/-! PROOFS. 40_crc.md: CRC_INIT (R66), the byte step bit by bit (R67) and by table (R71). -/

namespace Sys2Proof.Proofs
open Sys2Proof Sys2Proof.Machine

/-! ### The table form of the byte step

The single-bit step adds the generator exactly if the bit shifted out is 1, so bits that are never shifted out pass through it
by the plain shift. The upper 24 bits of the register are such bits for the 8 steps of one byte. -/

/-- A summand whose bit 0 is clear passes through the single-bit step by the plain shift. -/
theorem crcShift_xor {a d : Word} (hd : d.getLsbD 0 = false) : crcShift (a ^^^ d) = crcShift a ^^^ (d >>> 1) := by
  have hbit : (a ^^^ d).getLsbD 0 = a.getLsbD 0 := by rw [BitVec.getLsbD_xor, hd, Bool.xor_false]
  unfold crcShift
  rw [hbit, BitVec.ushiftRight_xor_distrib]
  split
  · rw [BitVec.xor_assoc, BitVec.xor_comm (d >>> 1), ← BitVec.xor_assoc]
  · rfl

/-- A summand whose low `k` bits are clear passes through `k` single-bit steps by the plain shift. -/
theorem crcShifts_xor (k : Nat) {a d : Word} (hd : ∀ i < k, d.getLsbD i = false) :
    crcShifts k (a ^^^ d) = crcShifts k a ^^^ (d >>> k) := by
  induction k generalizing a d with
  | zero => simp [crcShifts]
  | succ k ih =>
    have htail : ∀ i < k, (d >>> 1).getLsbD i = false := fun i hi => by
      rw [BitVec.getLsbD_ushiftRight]
      exact hd (1 + i) (by omega)
    simp only [crcShifts]
    rw [crcShift_xor (hd 0 (Nat.succ_pos k)), ih htail, ← BitVec.shiftRight_add, Nat.add_comm 1 k]

/-- A table entry is 8 single-bit steps of its index. -/
theorem crcTable_eq (n : Byte) : crcTable n = crcShifts 8 (n.setWidth 32) := by
  simp [crcTable, crcByte]

/-- A byte has no bits above the low 8. -/
theorem xor_byte_ushiftRight (c : Word) (b : Byte) : (c ^^^ b.setWidth 32) >>> 8 = c >>> 8 :=
  BitVec.eq_of_getLsbD_eq fun _ _ => by simp

/-- Eight single-bit steps: the table entry of the low byte, added to the upper bits shifted down. -/
theorem crcShifts_eight (x : Word) : crcShifts 8 x = crcTable (x.extractLsb' 0 8) ^^^ (x >>> 8) := by
  have hlow : ∀ i < 8, (x ^^^ (x.extractLsb' 0 8).setWidth 32).getLsbD i = false := fun i hi => by
    simp [hi, show i < 32 by omega]
  calc crcShifts 8 x
      = crcShifts 8 ((x.extractLsb' 0 8).setWidth 32 ^^^ (x ^^^ (x.extractLsb' 0 8).setWidth 32)) := by
        rw [BitVec.xor_comm x, ← BitVec.xor_assoc, BitVec.xor_self, BitVec.zero_xor]
    _ = crcTable (x.extractLsb' 0 8) ^^^ (x >>> 8) := by rw [crcShifts_xor 8 hlow, xor_byte_ushiftRight, crcTable_eq]

/-- Settles O17: the upper 24 bits pass through the 8 steps by the plain shift, and what the steps make of the low byte is its
table entry. -/
theorem crcTableForm : Obligations.CrcTableForm := by
  refine ⟨fun c b => ?_, fun _ => rfl, by decide, by decide, by decide, by decide, by decide⟩
  rw [crcByte, crcShifts_eight, xor_byte_ushiftRight]

/-! ### The byte step bit by bit, and CRC_INIT -/

/-- Settles O16: by the definitions. -/
theorem crcByteBitSerial : Obligations.CrcByteBitSerial :=
  ⟨fun _ _ => rfl, fun _ => rfl, fun _ _ _ => rfl⟩

/-- Every opcode of format Z refuses a nonzero argument (30_encoding.md R60). -/
theorem refusesReservedArg_of_mem_zOpcodes {opc : Byte} (h : opc.toNat ∈ zOpcodes) : RefusesReservedArg opc := by
  intro w s rest hopc harg hp
  have hd : decode w = .error .reservedArg := decode_z_reserved (by rwa [fieldOpc_eq, hopc]) harg
  exact step_cmdWrite_error hp hd

/-- CRC_INIT is the write of all ones to the CRC register. -/
theorem exec_crcInit (s : State) : exec .crcInit s = .next (s.setCrc 0xFFFFFFFF#32) := rfl

/-- Settles O15: the value written does not depend on the state, and its complement is 0. -/
theorem crcInitResult : Obligations.CrcInitResult :=
  ⟨rfl, decode_encode (i := .crcInit) rfl, exec_crcInit, fun _ => rfl, fun _ => BitVec.xor_self,
    refusesReservedArg_of_mem_zOpcodes (by decide)⟩

end Sys2Proof.Proofs
end

section
/-! PROOFS. 41_packer.md: `PushBit` (R76). -/

namespace Sys2Proof.Proofs
open Sys2Proof Sys2Proof.Machine

/-! ### The first half: the bit enters the partial byte -/

theorem shiftIn_eq (acc : Byte) (b : Bool) : shiftIn acc b = (acc <<< 1) ||| (if b then 1#8 else 0#8) := by
  cases b <;> rfl

section
variable {b : Bool} {u : Units}

/-- The 8th bit sends the byte into the compressor. -/
theorem pushIntoByte_of_full (hfull : u.1.pkNbits.toNat + 1 = 8) :
    pushIntoByte b u =
      ({ u.1 with pkAcc := 0#8, pkNbits := 0#3, pkX := u.1.pkX + 1 }, u.2.enter (shiftIn u.1.pkAcc b)) :=
  if_pos hfull

/-- An earlier bit stays in the packer. -/
theorem pushIntoByte_of_not_full (hfull : ¬ u.1.pkNbits.toNat + 1 = 8) :
    pushIntoByte b u =
      ({ u.1 with pkAcc := shiftIn u.1.pkAcc b, pkNbits := u.1.pkNbits + 1, pkX := u.1.pkX + 1 }, u.2) :=
  if_neg hfull

@[simp] theorem pushIntoByte_pkX : (pushIntoByte b u).1.pkX = u.1.pkX + 1 := by unfold pushIntoByte; split <;> rfl
@[simp] theorem pushIntoByte_pkW : (pushIntoByte b u).1.pkW = u.1.pkW := by unfold pushIntoByte; split <;> rfl
@[simp] theorem pushIntoByte_pkRows : (pushIntoByte b u).1.pkRows = u.1.pkRows := by unfold pushIntoByte; split <;> rfl

/-! ### The second half: the row's end -/

/-- A full byte has already left: the row's end has nothing to send. -/
theorem flushPartial_pushIntoByte_of_full (hfull : u.1.pkNbits.toNat + 1 = 8) :
    flushPartial (pushIntoByte b u) = u.2.enter (shiftIn u.1.pkAcc b) := by
  rw [pushIntoByte_of_full hfull]; rfl

/-- The row's end sends a byte that is not full, zero-padded: below 8 bits the 3-bit count does not wrap, so it is not 0. -/
theorem flushPartial_pushIntoByte_of_not_full (hfull : ¬ u.1.pkNbits.toNat + 1 = 8) :
    flushPartial (pushIntoByte b u) = u.2.enter (shiftIn u.1.pkAcc b <<< (8 - (u.1.pkNbits.toNat + 1))) := by
  have hcount : (u.1.pkNbits + 1).toNat = u.1.pkNbits.toNat + 1 := by bv_omega
  rw [pushIntoByte_of_not_full hfull, flushPartial, if_pos (hcount ▸ Nat.succ_pos _), hcount]

theorem packBit_of_not_last (hlast : ¬ u.1.pkX + 1 = u.1.pkW) : packBit b u = pushIntoByte b u :=
  if_neg (by rwa [pushIntoByte_pkX, pushIntoByte_pkW])

theorem packBit_of_last (hlast : u.1.pkX + 1 = u.1.pkW) :
    packBit b u =
      ({ u.1 with pkActive := false, pkX := 0#32, pkAcc := 0#8, pkNbits := 0#3, pkRows := u.1.pkRows + 1 },
        flushPartial (pushIntoByte b u)) := by
  rw [packBit, endRowIfDone, if_pos (by rwa [pushIntoByte_pkX, pushIntoByte_pkW])]
  simp only [pushIntoByte_pkW, pushIntoByte_pkRows]

end

/-- Settles O23: the four cases of the two halves. -/
theorem pushBitEffect : Obligations.PushBitEffect := by
  intro b s p acc full last ended
  have hacc : acc = shiftIn p.pkAcc b := (shiftIn_eq p.pkAcc b).symm
  rw [hacc, pushBit]
  refine ⟨fun ⟨hfull, hlast⟩ => ?_, fun ⟨hfull, hlast⟩ => ?_, fun ⟨hfull, hlast⟩ => ?_, fun ⟨hfull, hlast⟩ => ?_⟩
  · rw [packBit_of_not_last hlast, pushIntoByte_of_not_full hfull]; rfl
  · rw [packBit_of_not_last hlast, pushIntoByte_of_full hfull]; rfl
  · rw [packBit_of_last hlast, flushPartial_pushIntoByte_of_not_full hfull]; rfl
  · rw [packBit_of_last hlast, flushPartial_pushIntoByte_of_full hfull]; rfl

end Sys2Proof.Proofs
end

section
/-! PROOFS. 42_compressor.md: the partition of the level 0 body into stored blocks (R97). -/

namespace Sys2Proof.Proofs
open Sys2Proof Sys2Proof.Machine

/-! ### The parts of an input -/

/-- The number of stored blocks of a nonempty input. -/
def blockCount (x : List Byte) : Nat := (x.length + 65534) / 65535

/-- The bytes of an input that its stored block `i` holds. -/
def blockBytes (x : List Byte) (i : Nat) : List Byte := (x.drop (65535 * i)).take 65535

theorem blockCount_of_le {x : List Byte} (hne : x ≠ []) (h : x.length ≤ storedMax) : blockCount x = 1 := by
  have hpos := List.length_pos_iff.mpr hne
  unfold storedMax at h
  unfold blockCount
  omega

theorem blockCount_drop {x : List Byte} (h : ¬ x.length ≤ storedMax) :
    blockCount x = blockCount (x.drop storedMax) + 1 := by
  unfold blockCount
  rw [List.length_drop]
  unfold storedMax at h ⊢
  omega

theorem blockCount_pos {x : List Byte} (hne : x ≠ []) : 0 < blockCount x := by
  have hpos := List.length_pos_iff.mpr hne
  unfold blockCount
  omega

theorem blockBytes_zero (x : List Byte) : blockBytes x 0 = x.take storedMax := rfl

theorem blockBytes_succ (x : List Byte) (i : Nat) : blockBytes x (i + 1) = blockBytes (x.drop storedMax) i := by
  rw [blockBytes, blockBytes, List.drop_drop, Nat.mul_succ, Nat.add_comm]
  rfl

/-! ### The stored blocks -/

theorem storedBlocks_of_le {fuel : Nat} {x : List Byte} (h : x.length ≤ storedMax) :
    storedBlocks (fuel + 1) x = storedBlock true x := if_pos h

theorem storedBlocks_of_not_le {fuel : Nat} {x : List Byte} (h : ¬ x.length ≤ storedMax) :
    storedBlocks (fuel + 1) x = storedBlock false (x.take storedMax) ++ storedBlocks fuel (x.drop storedMax) := if_neg h

theorem storedBlock_length (final : Bool) (c : List Byte) : (storedBlock final c).length = c.length + 5 := by
  simp [storedBlock, le16]

/-- What follows a full block is shorter, so that one less unit of fuel is enough for it. -/
theorem length_drop_storedMax_lt {fuel : Nat} {x : List Byte} (hf : x.length < fuel + 1) (h : ¬ x.length ≤ storedMax) :
    (x.drop storedMax).length < fuel := by
  rw [List.length_drop]
  unfold storedMax at h ⊢
  omega

/-- A full block and the blocks of the remainder, which start again at part 0. -/
theorem storedBlocks_eq_flatMap (fuel : Nat) (x : List Byte) (hf : x.length < fuel) (hne : x ≠ []) :
    storedBlocks fuel x =
      (List.range (blockCount x)).flatMap fun i => storedBlock (i = blockCount x - 1) (blockBytes x i) := by
  induction fuel generalizing x with
  | zero => omega
  | succ fuel ih =>
    by_cases h : x.length ≤ storedMax
    · rw [storedBlocks_of_le h, blockCount_of_le hne h]
      simp [blockBytes_zero, List.take_of_length_le h]
    · have hrest : x.drop storedMax ≠ [] := fun he => h (List.drop_eq_nil_iff.mp he)
      have hpos := blockCount_pos hrest
      have hlast : ∀ i, i + 1 = blockCount (x.drop storedMax) ↔ i = blockCount (x.drop storedMax) - 1 := by omega
      rw [storedBlocks_of_not_le h, ih _ (length_drop_storedMax_lt hf h) hrest, blockCount_drop h,
        List.range_succ_eq_map, List.flatMap_cons, List.flatMap_map]
      simp only [Nat.add_sub_cancel, Nat.succ_eq_add_one, hlast, blockBytes_zero, blockBytes_succ, hpos.ne,
        decide_false]

/-- Five bytes before each block's own; the empty input too has one block. -/
theorem storedBlocks_length_eq (fuel : Nat) (x : List Byte) (hf : x.length < fuel) :
    (storedBlocks fuel x).length = x.length + 5 * max 1 (blockCount x) := by
  induction fuel generalizing x with
  | zero => omega
  | succ fuel ih =>
    by_cases h : x.length ≤ storedMax
    · have hone : max 1 (blockCount x) = 1 := by
        obtain rfl | hne := eq_or_ne x []
        · rfl
        · rw [blockCount_of_le hne h, max_self]
      rw [storedBlocks_of_le h, storedBlock_length, hone]
    · have hrest : x.drop storedMax ≠ [] := fun he => h (List.drop_eq_nil_iff.mp he)
      have hpos := blockCount_pos hrest
      rw [storedBlocks_of_not_le h, List.length_append, storedBlock_length, ih _ (length_drop_storedMax_lt hf h),
        blockCount_drop h, List.length_take, List.length_drop]
      omega

/-! ### The level 0 body and its stream -/

theorem stored_eq_flatMap {x : List Byte} (hne : x ≠ []) :
    stored x = (List.range (blockCount x)).flatMap fun i => storedBlock (i = blockCount x - 1) (blockBytes x i) :=
  storedBlocks_eq_flatMap _ x (Nat.lt_succ_self _) hne

theorem stored_length (x : List Byte) : (stored x).length = x.length + 5 * max 1 (blockCount x) :=
  storedBlocks_length_eq _ x (Nat.lt_succ_self _)

/-- The wrapper has 2 bytes before the body and 4 after it (42_compressor.md R92). -/
theorem zlibStream_level0_length (x : List Byte) : (zlibStream 0#4 x).length = (stored x).length + 6 := by
  simp [zlibStream, zlibStreamWith, bodyWith, be32]

theorem stored_of_le {x : List Byte} (h : x.length ≤ storedMax) : stored x = storedBlock true x := storedBlocks_of_le h

/-- Settles O35: the partition by induction over the blocks, and the sizes with it; the examples are of one block. -/
theorem storedBlockPartition : Obligations.StoredBlockPartition := by
  refine ⟨by decide, fun x hne => ?partition, fun x => ⟨stored_length x, ?streamSize⟩, by decide,
    fun x hx => ⟨?header, ?imageSize⟩⟩
  case partition =>
    rw [stored_eq_flatMap hne]
    simp only [storedBlock, decide_eq_true_eq]
    rfl
  case streamSize => rw [zlibStream_level0_length, stored_length, blockCount, Nat.add_right_comm]
  case header =>
    rw [stored_of_le (by rw [hx]; decide), storedBlock, hx]
    rfl
  case imageSize =>
    rw [zlibStream_level0_length, stored_length, blockCount, hx]
    rfl

end Sys2Proof.Proofs
end

section
/-! PROOFS. 44_control.md: the control commands NOP and CLRERR (R114, R116) and the effect of a register write (R117). -/

namespace Sys2Proof.Proofs
open Sys2Proof Sys2Proof.Machine

/-! ### NOP and CLRERR -/

theorem exec_nop (s : State) : exec .nop s = .next s := rfl

theorem exec_clrerr (s : State) : exec .clrerr s = .next (clearError s) := rfl

/-- A clear record is left as it is. -/
theorem clearError_of_clear {s : State} (h : s.error = ErrorRecord.reset) : clearError s = s := by
  rw [clearError, ← h]
  rfl

/-- Settles O11: the word is the encoding of NOP, whose meaning is the state itself. -/
theorem nopChangesNothing : Obligations.NopChangesNothing :=
  ⟨rfl, decode_encode (i := .nop) rfl, exec_nop, refusesReservedArg_of_mem_zOpcodes (by decide)⟩

/-- Settles O13: CLRERR is `clearError`, and the refusal of its word records an error only in a clear record. -/
theorem clrerrClearsRecordOnly : Obligations.ClrerrClearsRecordOnly := by
  refine ⟨rfl, decode_encode (i := .clrerr) rfl, exec_clrerr, fun s hclear => ?_,
    refusesReservedArg_of_mem_zOpcodes (by decide), fun _ => raise_of_err .reservedArg,
    fun _ => raise_of_no_err .reservedArg⟩
  rw [exec_clrerr, clearError_of_clear hclear]

/-! ### The effect of a register write -/

section
variable {v : Word} {s : State}

theorem writeReg_level_of_le (h : v.toNat ≤ 9) :
    writeReg .level v s = s.setRegs { s.regs with level := v.setWidth 4 } := by
  rw [writeReg, writeLevel, if_pos h]

theorem writeReg_level_of_gt (h : 9 < v.toNat) : writeReg .level v s = s := by
  rw [writeReg, writeLevel, if_neg (Nat.not_le.2 h)]
  rfl

theorem writeReg_filter_of_le (h : v.toNat ≤ Config.filterLast) :
    writeReg .filter v s = s.setRegs { s.regs with filter := v.setWidth 8 } := by
  rw [writeReg, writeFilter, if_pos h]

theorem writeReg_filter_of_gt (h : Config.filterLast < v.toNat) :
    writeReg .filter v s = s.setRegs { s.regs with filter := 0x00#8 } := by
  rw [writeReg, writeFilter, if_neg (Nat.not_le.2 h)]

/-- A write to a read-only register is ignored (20_memory.md R47): CMD to INK are the registers a write acts on. -/
theorem writeReg_eq_self {r : Reg} (h : regOffset r ∉ [0x008, 0x00C, 0x010, 0x014, 0x018, 0x01C]) :
    writeReg r v s = s := by
  cases r with
  | cmd | data | level | filter | width | ink => exact absurd (by decide) h
  | _ => rfl

/-- An aligned 32-bit write that meets neither CMD nor a register the host can write changes nothing: either a read-only
register stands at its offset or none. -/
theorem step_write_not_writable {off : Nat} {rest : List Event} (hp : s.port.pending = .write off .w32 v :: rest)
    (h4 : off % 4 = 0) (hin : off < 0x1000 + Config.outRamBytes)
    (hoff : off ∉ [0x008, 0x00C, 0x010, 0x014, 0x018, 0x01C]) : step s = .next (takeEvent rest s) := by
  cases hr : regAt off with
  | none => exact step_write_ignored hp ((inAperture_iff off).2 hin) h4 hr
  | some r =>
    obtain rfl := regOffset_of_regAt hr
    have hcmd : r ≠ .cmd := by
      rintro rfl
      exact hoff (by decide)
    rw [step_regWrite hcmd hp, writeReg_eq_self hoff]

end

/-- Settles O48: the write to CMD follows `decode`, the write to each other register is that register's rule, and every
other offset ignores it. -/
theorem registerWriteEffect : Obligations.RegisterWriteEffect := by
  intro s off v rest hp h4 hin s1
  refine ⟨?cmd, ?data, ?levelLegal, ?levelIgnored, ?filterLegal, ?filterCoerced, ?width, ?ink, ?ignored⟩
  case cmd =>
    rintro rfl
    exact ⟨fun i => step_cmdWrite_ok hp, fun e => step_cmdWrite_error hp⟩
  case data =>
    rintro rfl
    exact step_regWrite (r := .data) (by decide) hp
  case levelLegal =>
    rintro ⟨rfl, hv⟩
    rw [step_regWrite (r := .level) (by decide) hp, writeReg_level_of_le hv]
    rfl
  case levelIgnored =>
    rintro ⟨rfl, hv⟩
    rw [step_regWrite (r := .level) (by decide) hp, writeReg_level_of_gt hv]
  case filterLegal =>
    rintro ⟨rfl, hv⟩
    rw [step_regWrite (r := .filter) (by decide) hp, writeReg_filter_of_le hv]
    rfl
  case filterCoerced =>
    rintro ⟨rfl, hv⟩
    rw [step_regWrite (r := .filter) (by decide) hp, writeReg_filter_of_gt hv]
    rfl
  case width =>
    rintro rfl
    exact step_regWrite (r := .width) (by decide) hp
  case ink =>
    rintro rfl
    exact step_regWrite (r := .ink) (by decide) hp
  case ignored => exact step_write_not_writable hp h4 hin

end Sys2Proof.Proofs
end

section
/-! PROOFS. 30_encoding.md: decoding and encoding agree (R58, R60), and the match and mask rows (R59). -/

namespace Sys2Proof.Proofs
open Sys2Proof Sys2Proof.Machine

/-! ### A command word from its fields -/

theorem byte_eq_of_toNat {opc : Byte} {k : Nat} (h : opc.toNat = k) : opc = BitVec.ofNat 8 k := by
  rw [← h, BitVec.ofNat_toNat, BitVec.setWidth_eq]

section
variable {opc : Byte} {i : Instr} {mk4 : BitVec 3 → Instr} {mk32 : BitVec 6 → Instr}

/-- The word of a format Z command is its opcode above an argument of 0, and the command is legal. -/
theorem encode_of_z (h : opcodeRow opc = some (.z i)) : encode i = opc ++ 0#24 ∧ i.wellFormed = true := by
  unfold opcodeRow at h
  split at h <;> cases h
  all_goals
    next hopc =>
    rw [byte_eq_of_toNat hopc]
    decide

/-- The word of a format N4 command is its opcode, 21 reserved bits 0 and the count, which alone decides if it is legal. -/
theorem encode_of_n4 (h : opcodeRow opc = some (.n4 mk4)) (n : BitVec 3) :
    encode (mk4 n) = opc ++ 0#21 ++ n ∧ (mk4 n).wellFormed = countN4Ok n := by
  unfold opcodeRow at h
  split at h <;> cases h
  all_goals
    next hopc =>
    rw [byte_eq_of_toNat hopc]
    revert n
    decide

/-- The word of a format N32 command is its opcode, 18 reserved bits 0 and the count, which alone decides if it is legal. -/
theorem encode_of_n32 (h : opcodeRow opc = some (.n32 mk32)) (n : BitVec 6) :
    encode (mk32 n) = opc ++ 0#18 ++ n ∧ (mk32 n).wellFormed = countN32Ok n := by
  unfold opcodeRow at h
  split at h <;> cases h
  all_goals
    next hopc =>
    rw [byte_eq_of_toNat hopc]
    revert n
    decide

end

/-! ### A word from its fields, format by format (R57) -/

section
variable (w : Word)

theorem append_fieldsZ : fieldOpc w ++ fieldRsvZ w = w := by
  rw [fieldOpc, fieldRsvZ, BitVec.extractLsb'_append_extractLsb'_eq_extractLsb' (by omega)]
  exact BitVec.extractLsb'_eq_self

theorem append_fieldsN4 : fieldOpc w ++ fieldRsvN4 w ++ fieldN4 w = w := by
  rw [fieldOpc, fieldRsvN4, fieldN4, BitVec.extractLsb'_append_extractLsb'_eq_extractLsb' (by omega),
    BitVec.extractLsb'_append_extractLsb'_eq_extractLsb' (by omega)]
  exact BitVec.extractLsb'_eq_self

theorem append_fieldsN32 : fieldOpc w ++ fieldRsvN32 w ++ fieldN32 w = w := by
  rw [fieldOpc, fieldRsvN32, fieldN32, BitVec.extractLsb'_append_extractLsb'_eq_extractLsb' (by omega),
    BitVec.extractLsb'_append_extractLsb'_eq_extractLsb' (by omega)]
  exact BitVec.extractLsb'_eq_self

end

/-! ### What a decoded word was -/

section
variable {w : Word} {i : Instr}

theorem countN4Ok_of_not_bad {n : BitVec 3} (h : ¬ badCountN4 n = true) : countN4Ok n = true := by
  rw [badCountN4_iff] at h
  rw [countN4Ok_iff]
  omega

theorem countN32Ok_of_not_bad {n : BitVec 6} (h : ¬ badCountN32 n = true) : countN32Ok n = true := by
  rw [badCountN32_iff] at h
  rw [countN32Ok_iff]
  omega

/-- A word that decodes is the encoding of its command: its row's format leaves no bit of the word open. -/
theorem encode_of_decode (h : decode w = .ok i) : i.wellFormed = true ∧ encode i = w := by
  cases hrow : opcodeRow (fieldOpc w) with
  | none => rw [decode_of_illegal hrow] at h; cases h
  | some row =>
    cases row with
    | z j =>
      rw [decode_of_z hrow] at h
      split_ifs at h with hr
      cases h
      obtain ⟨henc, hwf⟩ := encode_of_z hrow
      refine ⟨hwf, henc.trans ?_⟩
      have hzero : 0#24 = fieldRsvZ w := (not_not.1 hr).symm
      rw [hzero]
      exact append_fieldsZ w
    | n4 mk =>
      rw [decode_of_n4 hrow] at h
      split_ifs at h with hr hn
      cases h
      obtain ⟨henc, hwf⟩ := encode_of_n4 hrow (fieldN4 w)
      refine ⟨hwf.trans (countN4Ok_of_not_bad hn), henc.trans ?_⟩
      have hzero : 0#21 = fieldRsvN4 w := (not_not.1 hr).symm
      rw [hzero]
      exact append_fieldsN4 w
    | n32 mk =>
      rw [decode_of_n32 hrow] at h
      split_ifs at h with hr hn
      cases h
      obtain ⟨henc, hwf⟩ := encode_of_n32 hrow (fieldN32 w)
      refine ⟨hwf.trans (countN32Ok_of_not_bad hn), henc.trans ?_⟩
      have hzero : 0#18 = fieldRsvN32 w := (not_not.1 hr).symm
      rw [hzero]
      exact append_fieldsN32 w

end

/-- Settles O1: the fields of a decoded word are those of its command's encoding; the other direction is `decode_encode`. -/
theorem decodeEncodeAgree : Obligations.DecodeEncodeAgree := by
  refine fun w i => ⟨encode_of_decode, ?_⟩
  rintro ⟨hwf, rfl⟩
  exact decode_encode hwf

/-! ### The match and mask rows -/

/-- The word of a command is in the command's own row. -/
theorem encode_and_rowMask (i : Instr) : encode i &&& rowMask i = rowMatch i := by
  cases i with
  | nop => exact Laws.EncodeMatches.nop
  | srst => exact Laws.EncodeMatches.srst
  | clrerr => exact Laws.EncodeMatches.clrerr
  | crcInit => exact Laws.EncodeMatches.crcInit
  | crcUpd n => exact Laws.EncodeMatches.crcUpd n
  | crcOut => exact Laws.EncodeMatches.crcOut
  | pkRow => exact Laws.EncodeMatches.pkRow
  | pkPix => exact Laws.EncodeMatches.pkPix
  | pkBits n => exact Laws.EncodeMatches.pkBits n
  | cmpStart => exact Laws.EncodeMatches.cmpStart
  | cmpWr n => exact Laws.EncodeMatches.cmpWr n
  | cmpFinish => exact Laws.EncodeMatches.cmpFinish

/-- Every mask covers the opcode, and no match value has a bit below it. -/
theorem rowMask_covers_opcode (i : Instr) :
    rowMask i &&& 0xFF000000#32 = 0xFF000000#32 ∧ rowMatch i &&& 0xFF000000#32 = rowMatch i := by
  cases i <;> decide +revert

/-- A word in a row has the row's match value as its opcode bits. -/
theorem rowMatch_eq_of_row {w : Word} {i : Instr} (h : w &&& rowMask i = rowMatch i) :
    rowMatch i = w &&& 0xFF000000#32 := by
  obtain ⟨hmask, hmatch⟩ := rowMask_covers_opcode i
  rw [← hmatch, ← h, BitVec.and_assoc, hmask]

theorem and_or_and_not (w m : Word) : (w &&& m) ||| (w &&& ~~~m) = w := by
  rw [← BitVec.and_or_distrib_left, BitVec.or_not_self, BitVec.and_allOnes]

/-- The count of a format N4 word is what the mask of its row leaves. -/
theorem eq_of_maskN4 {w m : Word} (h : w &&& 0xFFFFFFF8#32 = m) : m ||| (fieldN4 w).setWidth 32 = w := by
  have hlow : (fieldN4 w).setWidth 32 = w &&& ~~~0xFFFFFFF8#32 := BitVec.eq_of_toNat_eq <| by
    simp [fieldN4, BitVec.toNat_and, Nat.and_two_pow_sub_one_eq_mod w.toNat 3]
    omega
  rw [hlow, ← h, and_or_and_not]

/-- The count of a format N32 word is what the mask of its row leaves. -/
theorem eq_of_maskN32 {w m : Word} (h : w &&& 0xFFFFFFC0#32 = m) : m ||| (fieldN32 w).setWidth 32 = w := by
  have hlow : (fieldN32 w).setWidth 32 = w &&& ~~~0xFFFFFFC0#32 := BitVec.eq_of_toNat_eq <| by
    simp [fieldN32, BitVec.toNat_and, Nat.and_two_pow_sub_one_eq_mod w.toNat 6]
    omega
  rw [hlow, ← h, and_or_and_not]

/-- A word in a row, with a legal count where the row has one, is the word of a legal command of that row. -/
theorem exists_encode_of_row {w : Word} {i : Instr} (h : w &&& rowMask i = rowMatch i)
    (h4 : rowMask i = 0xFFFFFFF8#32 → countN4Ok (fieldN4 w) = true)
    (h32 : rowMask i = 0xFFFFFFC0#32 → countN32Ok (fieldN32 w) = true) :
    ∃ j : Instr, j.wellFormed = true ∧ encode j = w ∧ rowMatch j = rowMatch i := by
  have hz : i.wellFormed = true → encode i = rowMatch i → rowMask i = BitVec.allOnes 32 →
      ∃ j : Instr, j.wellFormed = true ∧ encode j = w ∧ rowMatch j = rowMatch i := fun hwf henc hmask => by
    rw [hmask, BitVec.and_allOnes] at h
    exact ⟨i, hwf, henc.trans h.symm, rfl⟩
  cases i with
  | crcUpd n => exact ⟨.crcUpd (fieldN4 w), h4 rfl, eq_of_maskN4 h, rfl⟩
  | cmpWr n => exact ⟨.cmpWr (fieldN4 w), h4 rfl, eq_of_maskN4 h, rfl⟩
  | pkBits n => exact ⟨.pkBits (fieldN32 w), h32 rfl, eq_of_maskN32 h, rfl⟩
  | _ => exact hz rfl rfl rfl

/-- Settles O4: a decoded word is its command's encoding, which is in the command's row; a word in a row is the encoding of
a legal command of it; the match value of a row is the opcode of each of its words. -/
theorem matchMaskRowsDecode : Obligations.MatchMaskRowsDecode := by
  have hrow : ∀ (w : Word) (i : Instr), decode w = .ok i → w &&& rowMask i = rowMatch i := fun w i h => by
    obtain ⟨-, rfl⟩ := encode_of_decode h
    exact encode_and_rowMask i
  refine ⟨hrow, fun w i h h4 h32 => ?decodes, fun w i j hi hj => ?disjoint, fun w hnone => ?refused⟩
  case decodes =>
    obtain ⟨j, hwf, rfl, hj⟩ := exists_encode_of_row h (fun hm => (countN4Ok_iff _).2 (h4 hm))
      (fun hm => (countN32Ok_iff _).2 (h32 hm))
    exact ⟨j, decode_encode hwf, hj⟩
  case disjoint => rw [rowMatch_eq_of_row hi, rowMatch_eq_of_row hj]
  case refused =>
    cases hd : decode w with
    | error e => exact ⟨e, rfl⟩
    | ok i => exact absurd (hrow w i hd) (hnone i)

end Sys2Proof.Proofs
end

section
/-! PROOFS. 60_exceptions.md: which check refuses a command and what the command does when none does (R121 to R126). -/

namespace Sys2Proof.Proofs
open Sys2Proof Sys2Proof.Machine

/-! ### A command is its checks and its effect -/

/-- The error of the first check of a command that fails, its count first (R125). -/
def refusal : Instr → State → Option ErrorName
  | .nop, _ => none
  | .srst, _ => none
  | .clrerr, _ => none
  | .crcInit, _ => none
  | .crcUpd n, _ => if badCountN4 n then some .badCount else none
  | .crcOut, s => if s.comp.cmpOpen then some .streamOpen else none
  | .pkRow, s =>
    if !s.comp.cmpOpen then some .noStream
    else if s.packer.pkActive then some .rowActive
    else if s.regs.width = 0#32 then some .zeroWidth
    else none
  | .pkPix, s => if !s.packer.pkActive then some .noRow else none
  | .pkBits n, s =>
    if badCountN32 n then some .badCount
    else if !s.packer.pkActive then some .noRow
    else if n.toNat > s.packer.pkW.toNat - s.packer.pkX.toNat then some .rowOverrun
    else none
  | .cmpStart, s => if s.comp.cmpOpen then some .streamOpen else none
  | .cmpWr n, s =>
    if badCountN4 n then some .badCount
    else if !s.comp.cmpOpen then some .noStream
    else if s.packer.pkActive then some .rowActive
    else none
  | .cmpFinish, s =>
    if !s.comp.cmpOpen then some .noStream
    else if s.packer.pkActive then some .rowActive
    else none

/-- CMP_START's effect (42_compressor.md R89). -/
def startStream (s : State) : State :=
  ((s.setComp { Compressor.reset with cmpOpen := true, cmpLevel := s.regs.level }).setOut
    { s.out with outValid := false, outLen := 0#32, cfail := false }).setPacker { s.packer with pkRows := 0#32 }

/-- PK_ROW's effect (41_packer.md R75). -/
def startRow (s : State) : State := (cmpInByte s.regs.filter s).setPacker (s.packer.begin s.regs.width)

/-- CMP_FINISH's effect (42_compressor.md R91). -/
def finishStream (s : State) : State := finishWith Config.outRamBytes (zlibStream s.comp.cmpLevel s.comp.cmpIn) s

/-- What a command does if no check fails. -/
def effect : Instr → State → State
  | .nop, s => s
  | .srst, s => resetEngine s
  | .clrerr, s => clearError s
  | .crcInit, s => s.setCrc 0xFFFFFFFF#32
  | .crcUpd n, s => s.setCrc (crcBytes s.crcAcc (dataBytes n.toNat s.regs.data))
  | .crcOut, s => s.setCrc (crcBytes s.crcAcc (outBytes s))
  | .pkRow, s => startRow s
  | .pkPix, s => pushBit (pixelBit s.regs.data s.regs.ink) s
  | .pkBits n, s => pushBits (dataBits n.toNat s.regs.data) s
  | .cmpStart, s => startStream s
  | .cmpWr n, s => cmpInBytes (dataBytes n.toNat s.regs.data) s
  | .cmpFinish, s => finishStream s

/-- The outcome of a command whose checks answered `r`. -/
def outcome (i : Instr) (s : State) : Option ErrorName → State
  | some e => raise e s
  | none => effect i s

/-- Every command answers a next state, and which one. -/
theorem exec_eq (i : Instr) (s : State) : exec i s = .next (outcome i s (refusal i s)) := by
  cases i
  case nop | srst | clrerr | crcInit => rfl
  case crcUpd n => simp only [exec, execCrcUpd, refusal]; split <;> rfl
  case crcOut => simp only [exec, execCrcOut, refusal]; split <;> rfl
  case pkRow => simp only [exec, execPkRow, refusal]; split_ifs <;> rfl
  case pkPix => simp only [exec, execPkPix, refusal]; split <;> rfl
  case pkBits n => simp only [exec, execPkBits, refusal]; split_ifs <;> rfl
  case cmpStart => simp only [exec, execCmpStart, refusal]; split <;> rfl
  case cmpWr n => simp only [exec, execCmpWr, refusal]; split_ifs <;> rfl
  case cmpFinish => simp only [exec, execCmpFinish, refusal]; split_ifs <;> rfl

section
variable {i : Instr} {s : State}

theorem exec_of_refusal {e : ErrorName} (h : refusal i s = some e) : exec i s = .next (raise e s) := by
  rw [exec_eq, h]; rfl

theorem exec_of_no_refusal (h : refusal i s = none) : exec i s = .next (effect i s) := by
  rw [exec_eq, h]; rfl

end

/-! ### What the effects of CMP_WR and CMP_FINISH leave unchanged -/

section
variable (xs : List Byte) (s : State)

@[simp] theorem cmpInBytes_regs : (cmpInBytes xs s).regs = s.regs := by rw [cmpInBytes_eq]; rfl
@[simp] theorem cmpInBytes_crcAcc : (cmpInBytes xs s).crcAcc = s.crcAcc := by rw [cmpInBytes_eq]; rfl
@[simp] theorem cmpInBytes_packer : (cmpInBytes xs s).packer = s.packer := by rw [cmpInBytes_eq]; rfl
@[simp] theorem cmpInBytes_comp : (cmpInBytes xs s).comp = xs.foldl Compressor.enter s.comp := by rw [cmpInBytes_eq]; rfl
@[simp] theorem cmpInBytes_out : (cmpInBytes xs s).out = s.out := by rw [cmpInBytes_eq]; rfl
@[simp] theorem cmpInBytes_error : (cmpInBytes xs s).error = s.error := by rw [cmpInBytes_eq]; rfl
@[simp] theorem cmpInBytes_port : (cmpInBytes xs s).port = s.port := by rw [cmpInBytes_eq]; rfl

end

section
variable (cap : Nat) (z : List Byte) (s : State)

@[simp] theorem finishWith_regs : (finishWith cap z s).regs = s.regs := by unfold finishWith; split <;> rfl
@[simp] theorem finishWith_crcAcc : (finishWith cap z s).crcAcc = s.crcAcc := by unfold finishWith; split <;> rfl
@[simp] theorem finishWith_packer : (finishWith cap z s).packer = s.packer := by unfold finishWith; split <;> rfl
@[simp] theorem finishWith_comp : (finishWith cap z s).comp = { s.comp with cmpOpen := false } := by
  unfold finishWith; split <;> rfl
@[simp] theorem finishWith_error : (finishWith cap z s).error = s.error := by unfold finishWith; split <;> rfl
@[simp] theorem finishWith_pending : (finishWith cap z s).port.pending = s.port.pending := by
  unfold finishWith; split <;> rfl
@[simp] theorem finishWith_readLog : (finishWith cap z s).port.readLog = s.port.readLog := by
  unfold finishWith; split <;> rfl

end

/-! ### Termination and the order of the checks -/

theorem effect_pending (i : Instr) (s : State) : (effect i s).port.pending = s.port.pending := by
  cases i with
  | cmpWr n => simp [effect]
  | cmpFinish => exact finishWith_pending _ _ s
  | _ => rfl

theorem effect_readLog (i : Instr) (s : State) : (effect i s).port.readLog = s.port.readLog := by
  cases i with
  | cmpWr n => simp [effect]
  | cmpFinish => exact finishWith_readLog _ _ s
  | _ => rfl

/-- Settles O10: a command is refused or has its effect, and neither makes an access or returns a value. -/
theorem everyCommandTerminates : Obligations.EveryCommandTerminates := by
  intro i s
  cases h : refusal i s with
  | none => exact ⟨_, exec_of_no_refusal h, effect_pending i s, effect_readLog i s⟩
  | some e => exact ⟨_, exec_of_refusal h, congrArg Port.pending (raise_port s e), congrArg Port.readLog (raise_port s e)⟩

section
variable {n4 : BitVec 3} {n32 : BitVec 6}

theorem badCountN4_eq_false (h1 : 1 ≤ n4.toNat) (h4 : n4.toNat ≤ 4) : badCountN4 n4 = false := by
  rw [Bool.eq_false_iff, Ne, badCountN4_iff]
  omega

theorem badCountN32_eq_false (h1 : 1 ≤ n32.toNat) (h32 : n32.toNat ≤ 32) : badCountN32 n32 = false := by
  rw [Bool.eq_false_iff, Ne, badCountN32_iff]
  omega

end

/-- Settles O44: each clause is the first check of its command's list that fails. -/
theorem stateChecksInOrder : Obligations.StateChecksInOrder := by
  intro s opened active
  have hclosed : ∀ {b : Bool}, ¬ b = true → (!b) = true := fun h => by simpa using h
  have hbad4 : ∀ n : BitVec 3, n.toNat = 0 ∨ 4 < n.toNat → badCountN4 n = true := fun n => (badCountN4_iff n).2
  have hbad32 : ∀ n : BitVec 6, n.toNat = 0 ∨ 32 < n.toNat → badCountN32 n = true := fun n => (badCountN32_iff n).2
  refine ⟨?crcOut, ?rowNoStream, ?rowActive, ?rowZeroWidth, ?pixNoRow, ?bitsBadCount, ?bitsNoRow, ?bitsOverrun, ?cmpStart,
    ?wrBadCount, ?wrNoStream, ?wrRowActive, ?finishNoStream, ?finishRowActive, ?crcUpdBadCount, ?neverRefused⟩
  case crcOut => exact fun ho => exec_of_refusal (if_pos ho)
  case rowNoStream => exact fun ho => exec_of_refusal (if_pos (hclosed ho))
  case rowActive =>
    rintro ⟨ho : s.comp.cmpOpen = true, ha : s.packer.pkActive = true⟩
    exact exec_of_refusal (by simp [refusal, ho, ha])
  case rowZeroWidth =>
    rintro ⟨ho : s.comp.cmpOpen = true, ha : ¬ s.packer.pkActive = true, hw⟩
    exact exec_of_refusal (by simp [refusal, ho, ha, hw])
  case pixNoRow => exact fun ha => exec_of_refusal (if_pos (hclosed ha))
  case bitsBadCount => exact fun n hn => exec_of_refusal (if_pos (hbad32 n hn))
  case bitsNoRow =>
    intro n h1 h32 (ha : ¬ s.packer.pkActive = true)
    exact exec_of_refusal (by simp [refusal, badCountN32_eq_false h1 h32, ha])
  case bitsOverrun =>
    intro n h1 h32 (ha : s.packer.pkActive = true) hx
    exact exec_of_refusal (by simp [refusal, badCountN32_eq_false h1 h32, ha, hx])
  case cmpStart => exact fun ho => exec_of_refusal (if_pos ho)
  case wrBadCount => exact fun n hn => exec_of_refusal (if_pos (hbad4 n hn))
  case wrNoStream =>
    intro n h1 h4 (ho : ¬ s.comp.cmpOpen = true)
    exact exec_of_refusal (by simp [refusal, badCountN4_eq_false h1 h4, ho])
  case wrRowActive =>
    rintro n h1 h4 ⟨ho : s.comp.cmpOpen = true, ha : s.packer.pkActive = true⟩
    exact exec_of_refusal (by simp [refusal, badCountN4_eq_false h1 h4, ho, ha])
  case finishNoStream => exact fun ho => exec_of_refusal (if_pos (hclosed ho))
  case finishRowActive =>
    rintro ⟨ho : s.comp.cmpOpen = true, ha : s.packer.pkActive = true⟩
    exact exec_of_refusal (by simp [refusal, ho, ha])
  case crcUpdBadCount => exact fun n hn => exec_of_refusal (if_pos (hbad4 n hn))
  case neverRefused => exact ⟨_, _, _, _, exec_nop s, rfl, rfl, rfl, exec_clrerr s, rfl, exec_crcInit s, rfl⟩

/-! ### The error record -/

/-- The checks do not look at the error record. -/
theorem refusal_setError (i : Instr) (s : State) (r : ErrorRecord) : refusal i (s.setError r) = refusal i s := by
  cases i <;> rfl

theorem finishWith_setError (cap : Nat) (z : List Byte) (s : State) (r : ErrorRecord) :
    finishWith cap z (s.setError r) = (finishWith cap z s).setError r := by
  unfold finishWith; split <;> rfl

/-- The error record enters no effect. -/
theorem effect_setError (i : Instr) (s : State) (r : ErrorRecord) :
    (effect i (s.setError r)).setError (effect i s).error = effect i s := by
  cases i with
  | cmpWr n => simp only [effect, cmpInBytes_eq]; rfl
  | cmpFinish =>
    have h : finishStream (s.setError r) = (finishStream s).setError r := finishWith_setError _ _ s r
    rw [effect, effect, h]
    rfl
  | _ => rfl

theorem raise_setError (e : ErrorName) (s : State) (r : ErrorRecord) :
    (raise e (s.setError r)).setError (raise e s).error = raise e s := by
  unfold raise
  split <;> split <;> rfl

/-- Settles O42: neither the checks nor the effect of a command look at the record. -/
theorem errorRecordDoesNotBlock : Obligations.ErrorRecordDoesNotBlock := by
  refine ⟨fun e s => ⟨raise_of_no_err e, raise_of_err e⟩, fun i s r => ?_⟩
  have hr := refusal_setError i s r
  cases h : refusal i s with
  | none => exact ⟨_, _, exec_of_no_refusal h, exec_of_no_refusal (hr.trans h), effect_setError i s r⟩
  | some e => exact ⟨_, _, exec_of_refusal h, exec_of_refusal (hr.trans h), raise_setError e s r⟩

/-- Settles O43: the table, evaluated. -/
theorem errorCodeTable : Obligations.ErrorCodeTable := by
  unfold Obligations.ErrorCodeTable
  decide

end Sys2Proof.Proofs
end

section
/-! PROOFS. 20_memory.md and 60_exceptions.md: what a step does with the next access (R43 to R51), and which steps keep a
recorded error (R121). -/

namespace Sys2Proof.Proofs
open Sys2Proof Sys2Proof.Machine

/-! ### The step of a command, and of nothing -/

/-- Settles O7: the write to CMD follows `decode`; `withFetchWord` places it before the pending accesses, which are the state's
own again once it is taken up. -/
theorem stepRunsDecodedCommand : Obligations.StepRunsDecodedCommand := by
  intro s rest w hp
  refine ⟨fun i => step_cmdWrite_ok hp, fun e => step_cmdWrite_error hp, fun i nbits v hd => ?_⟩
  have h := step_cmdWrite_ok (s := s.withFetchWord nbits v) (rest := s.port.pending) rfl hd
  rwa [State.withFetchWord, takeEvent_placeFirst] at h

/-- Settles O8: with nothing pending there is no access to take up. -/
theorem idleWithoutAccess : Obligations.IdleWithoutAccess := by
  intro s hp
  simp only [step, accept, hp]

/-! ### Where a step stops -/

theorem accept_of_pending {s : State} {e : Event} {rest : List Event} (hp : s.port.pending = e :: rest) :
    accept s = deliver e (takeEvent rest s) := by
  simp only [accept, hp]

theorem step_read_outside {s : State} {off : Nat} {w : Width} {rest : List Event}
    (hp : s.port.pending = .read off w :: rest) (hout : inAperture off = false) : step s = .fault .outsideAperture := by
  simp only [step, accept_of_pending hp, deliver, hout, if_neg Bool.false_ne_true]

/-- Everything a write does: it is not to the engine, or a command word written to CMD, or a register's write, or refused, or
ignored. -/
theorem deliver_write_cases (off : Nat) (w : Width) (v : Word) (s : State) :
    (inAperture off = false ∧ deliver (.write off w v) s = .outside) ∨
    (off = 0x008 ∧ w = .w32 ∧ deliver (.write off w v) s = busCommand v s) ∨
    ∃ t, deliver (.write off w v) s = .done t ∧ ((∃ r, t = writeReg r v s) ∨ t = raise .access s ∨ t = s) := by
  simp only [deliver]
  by_cases hin : inAperture off = true
  · rw [if_pos hin, busWrite]
    by_cases hw : isWordAccess off w = true
    · rw [if_pos hw]
      cases hr : regAt off with
      | none => exact .inr (.inr ⟨_, rfl, .inr (.inr rfl)⟩)
      | some r =>
        cases r with
        | cmd => exact .inr (.inl ⟨(regOffset_of_regAt hr).symm, ((isWordAccess_iff off w).1 hw).1, rfl⟩)
        | _ => exact .inr (.inr ⟨_, rfl, .inl ⟨_, rfl⟩⟩)
    · rw [if_neg hw]
      exact .inr (.inr ⟨_, rfl, .inr (.inl rfl)⟩)
  · rw [if_neg hin]
    exact .inl ⟨Bool.eq_false_iff.2 hin, rfl⟩

theorem le_of_not_inAperture {off : Nat} (h : inAperture off = false) : 0x1000 + Config.outRamBytes ≤ off := by
  rw [Bool.eq_false_iff, Ne, inAperture_iff] at h
  omega

/-- A command word answers a next state: it is executed or refused. -/
theorem busCommand_next (v : Word) (s : State) :
    (∃ e, busCommand v s = .done (raise e s)) ∨ ∃ i, decode v = .ok i ∧ busCommand v s = .run i s := by
  unfold busCommand
  cases hd : decode v with
  | ok i => exact .inr ⟨i, rfl, rfl⟩
  | error e => exact .inl ⟨e, rfl⟩

/-- Settles O9: a read or a write outside the aperture is not delivered; every other access and a reset are done, or run a
command, which answers a next state. -/
theorem stepStopsOnlyOutsideAperture : Obligations.StepStopsOnlyOutsideAperture := by
  intro s
  cases hp : s.port.pending with
  | nil => exact .inl ⟨s, idleWithoutAccess s hp⟩
  | cons e rest =>
    have ha := accept_of_pending hp
    cases e with
    | powerOnReset => exact .inl ⟨_, by rw [step, ha]; rfl⟩
    | read off w =>
      cases hin : inAperture off with
      | true => exact .inl ⟨_, step_read hp hin⟩
      | false => exact .inr (.inl ⟨off, w, rest, rfl, le_of_not_inAperture hin, step_read_outside hp hin⟩)
    | write off w v =>
      obtain ⟨hin, hd⟩ | ⟨-, -, hd⟩ | ⟨t, hd, -⟩ := deliver_write_cases off w v (takeEvent rest s)
      · exact .inr (.inr ⟨off, w, v, rest, rfl, le_of_not_inAperture hin, by rw [step, ha, hd]⟩)
      · refine .inl ?_
        obtain ⟨e, hc⟩ | ⟨i, -, hc⟩ := busCommand_next v (takeEvent rest s)
        · exact ⟨_, by rw [step, ha, hd, hc]⟩
        · exact ⟨_, by rw [step, ha, hd, hc]; exact exec_eq i _⟩
      · exact .inl ⟨t, by rw [step, ha, hd]⟩

/-! ### A recorded error is kept -/

theorem writeReg_error (r : Reg) (v : Word) (s : State) : (writeReg r v s).error = s.error := by
  cases r <;> rfl

theorem effect_error {i : Instr} (hsrst : i ≠ .srst) (hclr : i ≠ .clrerr) (s : State) :
    (effect i s).error = s.error := by
  cases i with
  | srst => exact absurd rfl hsrst
  | clrerr => exact absurd rfl hclr
  | cmpWr n => exact cmpInBytes_error _ s
  | cmpFinish => exact finishWith_error _ _ s
  | _ => rfl

/-- With an error recorded every command but SRST and CLRERR keeps the record. -/
theorem exec_keeps_recorded_error {i : Instr} {s t : State} (h : exec i s = .next t) (herr : s.error.err = true)
    (hsrst : i ≠ .srst) (hclr : i ≠ .clrerr) : t.error = s.error := by
  cases hr : refusal i s with
  | none =>
    rw [exec_of_no_refusal hr] at h
    rw [← Host.Outcome.next.inj h, effect_error hsrst hclr]
  | some e =>
    rw [exec_of_refusal hr, raise_of_err e herr] at h
    rw [← Host.Outcome.next.inj h]

theorem busRead_keeps_recorded_error {s : State} (herr : s.error.err = true) (off : Nat) (w : Width) :
    (busRead off w s).error = s.error := by
  unfold busRead
  split_ifs
  · rfl
  · rfl
  · rw [raise_of_err _ herr]; rfl

section
variable {s t : State} {rest : List Event} (herr : s.error.err = true) (h : step s = .next t)
include herr h

theorem step_read_keeps_recorded_error {off : Nat} {w : Width} (hp : s.port.pending = .read off w :: rest) :
    t.error = s.error := by
  cases hin : inAperture off with
  | true =>
    rw [step_read hp hin] at h
    exact Host.Outcome.next.inj h ▸ busRead_keeps_recorded_error (s := takeEvent rest s) herr off w
  | false =>
    rw [step_read_outside hp hin] at h
    cases h

/-- A command word that changes a recorded error is SRST's or CLRERR's. -/
theorem step_cmdWrite_keeps_recorded_error {v : Word} (hp : s.port.pending = cmdWrite v :: rest) :
    t.error = s.error ∨ v = encode .srst ∨ v = encode .clrerr := by
  cases hc : decode v with
  | error e =>
    rw [step_cmdWrite_error hp hc, raise_of_err (s := takeEvent rest s) e herr] at h
    exact .inl (Host.Outcome.next.inj h ▸ rfl)
  | ok i =>
    obtain ⟨-, rfl⟩ := encode_of_decode hc
    rw [step_cmdWrite_ok hp hc] at h
    by_cases hsrst : i = .srst
    · exact .inr (.inl (congrArg encode hsrst))
    by_cases hclr : i = .clrerr
    · exact .inr (.inr (congrArg encode hclr))
    · exact .inl (exec_keeps_recorded_error (s := takeEvent rest s) h herr hsrst hclr)

theorem step_write_keeps_recorded_error {off : Nat} {w : Width} {v : Word}
    (hp : s.port.pending = .write off w v :: rest) :
    t.error = s.error ∨ .write off w v = cmdWrite (encode .srst) ∨ .write off w v = cmdWrite (encode .clrerr) := by
  have ha := accept_of_pending hp
  obtain ⟨-, hd⟩ | ⟨rfl, rfl, -⟩ | ⟨u, hd, hu⟩ := deliver_write_cases off w v (takeEvent rest s)
  · rw [step, ha, hd] at h
    cases h
  · exact (step_cmdWrite_keeps_recorded_error herr h hp).imp_right (Or.imp (congrArg cmdWrite) (congrArg cmdWrite))
  · left
    rw [step, ha, hd] at h
    obtain rfl := Host.Outcome.next.inj h
    obtain ⟨r, rfl⟩ | rfl | rfl := hu
    · exact writeReg_error r v _
    · rw [raise_of_err (s := takeEvent rest s) _ herr]; rfl
    · rfl

end

/-- Settles O45: no read, no register write and no further refusal changes a record that holds an error, and of the commands
only SRST and CLRERR do. -/
theorem errorRecordIsSticky : Obligations.ErrorRecordIsSticky := by
  intro s t h herr
  cases hp : s.port.pending with
  | nil =>
    rw [idleWithoutAccess s hp] at h
    exact .inl (Host.Outcome.next.inj h ▸ rfl)
  | cons e rest =>
    cases e with
    | powerOnReset => exact .inr ⟨rest, .inl rfl⟩
    | read off w => exact .inl (step_read_keeps_recorded_error herr h hp)
    | write off w v =>
      obtain hkept | hsrst | hclr := step_write_keeps_recorded_error herr h hp
      · exact .inl hkept
      · exact .inr ⟨rest, .inr (.inl (congrArg (· :: rest) hsrst))⟩
      · exact .inr ⟨rest, .inr (.inr (congrArg (· :: rest) hclr))⟩

/-! ### Reads -/

/-- Settles O46: an aligned read in the aperture returns `readWord`, and only the draw may advance, not below the window. -/
theorem readHasNoSideEffect : Obligations.ReadHasNoSideEffect := by
  intro s off rest hp h4 hoff
  have hstep := step_read hp ((inAperture_iff off).2 hoff)
  rw [busRead, if_pos ((isWordAccess_iff off .w32).2 ⟨rfl, h4⟩)] at hstep
  refine ⟨_, readWord off (takeEvent rest s), hstep, ?_⟩
  cases hd : readDraws off (takeEvent rest s) with
  | false => exact ⟨rfl, rfl, rfl, rfl, rfl, rfl, rfl, rfl, fun _ => rfl⟩
  | true =>
    refine ⟨rfl, rfl, rfl, rfl, rfl, rfl, rfl, rfl, fun hlt => ?_⟩
    rw [readDraws_eq_false_of_lt hlt] at hd
    cases hd

/-- Settles O47: both accesses are the refused ones. -/
theorem accessErrorEffect : Obligations.AccessErrorEffect := by
  intro s off w rest hoff hbad
  have hin := (inAperture_iff off).2 hoff
  have hw : isWordAccess off w = false := by
    rw [Bool.eq_false_iff, Ne, isWordAccess_iff]
    rintro ⟨rfl, h4⟩
    exact hbad.elim (· rfl) (· h4)
  refine ⟨fun v hp => step_write_refused hp hin hw, fun hp => ?_, rfl⟩
  rw [step_read hp hin, busRead, hw, if_neg Bool.false_ne_true]

/-- An aligned read of a register returns the register's value and changes nothing else. -/
theorem step_read_reg {s : State} {rest : List Event} (r : Reg) (hp : s.port.pending = .read (regOffset r) .w32 :: rest) :
    step s = .next (returnValue (readReg s r) (takeEvent rest s)) := by
  have hlt : regOffset r < windowBase := by have := regOffset_lt r; simp only [windowBase]; omega
  have hread : readReg (takeEvent rest s) r = readReg s r := by cases r <;> rfl
  rw [step_read hp (inAperture_of_lt hlt), busRead, if_pos ((isWordAccess_iff _ _).2 ⟨rfl, regOffset_aligned r⟩),
    readDraws_eq_false_of_lt hlt, if_neg Bool.false_ne_true, readWord, regAt_regOffset, ← hread]

/-- The two sums stand in separate halves of an Adler-32 value. -/
theorem adlerWord_toNat (a b : Fin Config.adlerMod) : (adlerWord a b).toNat = b.val * 65536 + a.val := by
  have ha := a.isLt
  have hb := b.isLt
  unfold Config.adlerMod at ha hb
  rw [adlerWord, BitVec.toNat_or, BitVec.toNat_shiftLeft, BitVec.toNat_ofNat, BitVec.toNat_ofNat,
    Nat.mod_eq_of_lt (by omega), Nat.mod_eq_of_lt (a := a.val) (by omega), Nat.shiftLeft_eq, Nat.mod_eq_of_lt (by omega),
    ← Nat.shiftLeft_eq, ← Nat.shiftLeft_add_eq_or_of_lt (by omega), Nat.shiftLeft_eq]

theorem adlerWord_eq (a b : Fin Config.adlerMod) : adlerWord a b = BitVec.ofNat 32 (b.val * 65536 + a.val) := by
  rw [← adlerWord_toNat, BitVec.ofNat_toNat, BitVec.setWidth_eq]

/-- Settles O49: each offset is its register's, and a read returns `readReg`. -/
theorem registerReadValues : Obligations.RegisterReadValues := by
  intro s off rest hp returns
  refine ⟨?_, ?_, ?_, ?_, ?_, ?_, ?_, ?_, ?_, ?_, ?_, ?_, ?_, ?adler⟩
  case adler =>
    rintro rfl
    rw [← adlerWord_eq]
    exact step_read_reg .adlerValue hp
  all_goals rintro rfl
  · exact step_read_reg .id hp
  · exact step_read_reg .status hp
  · exact step_read_reg .cmd hp
  · exact step_read_reg .data hp
  · exact step_read_reg .level hp
  · exact step_read_reg .filter hp
  · exact step_read_reg .width hp
  · exact step_read_reg .ink hp
  · exact step_read_reg .crcValue hp
  · exact step_read_reg .pkX hp
  · exact step_read_reg .pkRows hp
  · exact step_read_reg .inCount hp
  · exact step_read_reg .outLen hp

/-! ### STATUS -/

theorem flagBit_getLsbD (b : Bool) (pos k : Nat) :
    (flagBit b pos).getLsbD k = (decide (k < 32) && decide (k = pos) && b) := by
  by_cases h : k = pos
  · subst h
    cases b <;> simp [flagBit]
  · cases b with
    | false => simp [flagBit]
    | true =>
      simp [flagBit, h]
      omega

/-- Each bit of STATUS: five flags, then the two fields, and nothing between and above them. -/
theorem statusWord_getLsbD (s : State) (k : Nat) (hk : k < 32) :
    (statusWord s).getLsbD k =
      if k = 0 then s.comp.cmpOpen else if k = 1 then s.packer.pkActive else if k = 2 then s.out.outValid
      else if k = 3 then s.out.cfail else if k = 4 then s.error.err
      else if 8 ≤ k ∧ k < 16 then s.error.errCode.getLsbD (k - 8)
      else if 16 ≤ k ∧ k < 20 then s.comp.cmpLevel.getLsbD (k - 16) else false := by
  simp only [statusWord, BitVec.getLsbD_or, flagBit_getLsbD, BitVec.getLsbD_shiftLeft, BitVec.getLsbD_setWidth, hk]
  interval_cases k <;> simp

/-- Settles O50: bit by bit. -/
theorem statusFields : Obligations.StatusFields := by
  intro s
  have hbit := statusWord_getLsbD s
  refine ⟨hbit 0 (by omega), hbit 1 (by omega), hbit 2 (by omega), hbit 3 (by omega), hbit 4 (by omega), ?_, ?_, ?_, ?_⟩
  all_goals
    refine BitVec.eq_of_getLsbD_eq fun i hi => ?_
    rw [BitVec.getLsbD_extractLsb', hbit _ (by omega)]
    interval_cases i <;> simp

/-! ### The OUT window -/

theorem windowByte_of_listed {s : State} {i : Nat} {b : Byte} (hv : s.out.outValid = true) (hi : i < s.out.outLen.toNat)
    (hb : s.out.outRam.read i = some b) : windowByte s i = b := by
  have hd : windowDefined s i = true := by simp [windowDefined, hv, hi]
  rw [windowByte, if_pos hd, ramByte, hb]

/-- Byte `i` of the window stands in its word big-endian (20_memory.md R44). -/
theorem windowWord_extract (s : State) (i : Nat) :
    (windowWord s (i / 4)).extractLsb' (24 - 8 * (i % 4)) 8 = windowByte s i := by
  obtain ⟨h0, h1, h2, h3⟩ := packWord_bytes (windowByte s (4 * (i / 4))) (windowByte s (4 * (i / 4) + 1))
    (windowByte s (4 * (i / 4) + 2)) (windowByte s (4 * (i / 4) + 3))
  have hi : i = 4 * (i / 4) + i % 4 := (Nat.div_add_mod i 4).symm
  have hlt : i % 4 < 4 := Nat.mod_lt i (by omega)
  conv_rhs => rw [hi]
  interval_cases i % 4
  · exact h0
  · exact h1
  · exact h2
  · exact h3

/-- Settles O51: the read returns the word of the window, which holds the byte at its place. -/
theorem outWindowIsBigEndian : Obligations.OutWindowIsBigEndian := by
  intro s i b rest hp hv hi hcap hb
  have hin : inAperture (0x1000 + 4 * (i / 4)) = true := (inAperture_iff _).2 (by omega)
  have hread : readWord (0x1000 + 4 * (i / 4)) (takeEvent rest s) = windowWord (takeEvent rest s) (i / 4) := by
    rw [readWord, regAt_eq_none_of_le (by omega)]
    simp [windowBase]
  have hstep := step_read hp hin
  rw [busRead, if_pos ((isWordAccess_iff _ .w32).2 ⟨rfl, by omega⟩), hread] at hstep
  refine ⟨_, windowWord (takeEvent rest s) (i / 4), hstep, ?_, ?_⟩
  · split <;> rfl
  · rw [windowWord_extract]
    exact windowByte_of_listed (s := takeEvent rest s) hv hi hb

/-! ### Host addresses -/

theorem apertureOffset_eq (addr : Nat) :
    apertureOffset addr = if Config.base ≤ addr ∧ addr < Config.base + 0x1000 + Config.outRamBytes
      then some (addr - Config.base) else none := by
  rw [apertureOffset, apertureBytes, windowBase, ← Nat.add_assoc]

/-- Settles O53: the aperture holds exactly the addresses from BASE to its size above it. -/
theorem hostAddressDecode : Obligations.HostAddressDecode := by
  intro addr w v s
  constructor
  · intro h
    have ha : apertureOffset addr = some (addr - Config.base) := (apertureOffset_eq addr).trans (if_pos h)
    simp only [memRead, memWrite, ha]
    exact ⟨rfl, rfl⟩
  · intro h
    have ha : apertureOffset addr = none := (apertureOffset_eq addr).trans (if_neg (by omega))
    simp only [memRead, memWrite, ha, and_self]

end Sys2Proof.Proofs
end

section
/-! PROOFS. 70_reset_and_hazards.md and 44_control.md: reset (R137), SRST (R115) and what NOP and CLRERR leave unchanged. -/

namespace Sys2Proof.Proofs
open Sys2Proof Sys2Proof.Machine

theorem exec_srst (s : State) : exec .srst s = .next (resetEngine s) := rfl

theorem statusWord_resetEngine (s : State) : statusWord (resetEngine s) = 0x00000000#32 := by
  have h : statusWord (resetEngine s) = statusWord State.reset := rfl
  rw [h]
  decide

/-- Settles O12: SRST is the reset of the engine. -/
theorem srstResult : Obligations.SrstResult :=
  fun s => ⟨_, exec_srst s, rfl, rfl, rfl, rfl, rfl, rfl, rfl, fun _ => rfl, rfl, rfl, rfl, statusWord_resetEngine s, BitVec.xor_self⟩

/-- Settles O14: NOP is the state itself, and CLRERR replaces the record. -/
theorem controlCommandsFrame : Obligations.ControlCommandsFrame := by
  intro i s t hi h
  rcases List.mem_pair.1 hi with rfl | rfl
  · obtain rfl := Host.Outcome.next.inj ((exec_nop s).symm.trans h)
    exact ⟨rfl, rfl, rfl, rfl, rfl, rfl, rfl, rfl, fun _ => rfl, fun _ => rfl⟩
  · obtain rfl := Host.Outcome.next.inj ((exec_clrerr s).symm.trans h)
    exact ⟨rfl, rfl, rfl, rfl, rfl, rfl, rfl, rfl, fun _ => rfl, fun hne => by cases hne⟩

theorem step_powerOnReset {s : State} {rest : List Event} (hp : s.port.pending = .powerOnReset :: rest) :
    step s = .next (resetEngine (takeEvent rest s)) := by
  rw [step, accept_of_pending hp]; rfl

/-- Settles O54: both are the reset of the engine, after which every register reads as after `State.reset`. -/
theorem powerOnResetState : Obligations.PowerOnResetState := by
  intro s rest hp
  have hadler : adlerWord 1 0 = 0x00000001#32 := by decide
  refine ⟨step_powerOnReset hp, _, step_powerOnReset hp, rfl, fun _ => rfl, rfl, hadler, rfl, fun r hr => ?_⟩
  cases r with
  | crcValue => exact BitVec.xor_self
  | status => exact statusWord_resetEngine _
  | id | adlerValue | ink => exact absurd (by simp) hr
  | _ => rfl

end Sys2Proof.Proofs
end

section
/-! PROOFS. 40_crc.md: the commands of the CRC unit (R66 to R70). -/

namespace Sys2Proof.Proofs
open Sys2Proof Sys2Proof.Machine

section
variable {n : BitVec 3}

theorem refusal_crcUpd_of_legal (h1 : 1 ≤ n.toNat) (h4 : n.toNat ≤ 4) (s : State) : refusal (.crcUpd n) s = none := by
  rw [refusal, badCountN4_eq_false h1 h4, if_neg Bool.false_ne_true]

theorem exec_crcUpd (h1 : 1 ≤ n.toNat) (h4 : n.toNat ≤ 4) (s : State) :
    exec (.crcUpd n) s = .next (s.setCrc (crcBytes s.crcAcc (dataBytes n.toNat s.regs.data))) :=
  exec_of_no_refusal (refusal_crcUpd_of_legal h1 h4 s)

end

/-- Settles O18: the only check of CRC_UPD is its count. -/
theorem crcUpdResult : Obligations.CrcUpdResult := by
  refine fun n s => ⟨fun ⟨h1, h4⟩ => exec_crcUpd h1 h4 s, fun hn => exec_of_refusal ?_⟩
  rw [refusal, (badCountN4_iff n).2 hn, if_pos rfl]

theorem exec_crcOut {s : State} (ho : s.comp.cmpOpen = false) :
    exec .crcOut s = .next (s.setCrc (crcBytes s.crcAcc (outBytes s))) :=
  exec_of_no_refusal (by rw [refusal, ho, if_neg Bool.false_ne_true])

/-- The bytes CRC_OUT runs over are the listed ones, whether or not the result is valid. -/
theorem outBytes_eq_of_read {s : State} {xs : List Byte} (hlen : xs.length = s.out.outLen.toNat)
    (hread : ∀ i, i < xs.length → s.out.outRam.read i = xs[i]?) : outBytes s = xs :=
  outBytes_of_holds (s := s.setOut { s.out with outValid := true }) ⟨rfl, hlen.symm, hread⟩

theorem outBytes_of_outLen_zero {s : State} (h : s.out.outLen = 0#32) : outBytes s = [] := by
  rw [outBytes, h]; rfl

/-- Settles O19: the finished stream's bytes are the listed ones, and there are none of them at length 0. -/
theorem crcOutResult : Obligations.CrcOutResult := by
  refine fun s ho => ⟨⟨_, exec_crcOut ho, rfl, fun xs hlen hread => ?_⟩, fun hzero => ?_⟩
  · rw [← outBytes_eq_of_read hlen hread]; rfl
  · rw [exec_crcOut ho, outBytes_of_outLen_zero hzero]; rfl

/-- A list of CRC_UPDs runs the CRC over all their bytes, and of the rest changes only DATA. -/
theorem runCommands_crcUpd (cs : List (Word × BitVec 3)) (s : State) (hn : ∀ c ∈ cs, 1 ≤ c.2.toNat ∧ c.2.toNat ≤ 4) :
    ∃ d, runCommands (cs.map fun c => (c.1, Instr.crcUpd c.2)) s =
      .next ((writeReg .data d s).setCrc (crcBytes s.crcAcc (cs.flatMap fun c => dataBytes c.2.toNat c.1))) := by
  induction cs generalizing s with
  | nil => exact ⟨s.regs.data, rfl⟩
  | cons c cs ih =>
    obtain ⟨v, n⟩ := c
    obtain ⟨h1, h4⟩ := hn _ (List.mem_cons_self ..)
    obtain ⟨d, hd⟩ := ih ((writeReg .data v s).setCrc (crcBytes s.crcAcc (dataBytes n.toNat v)))
      fun c hc => hn c (List.mem_cons_of_mem _ hc)
    refine ⟨d, ?_⟩
    have hexec : exec (.crcUpd n) (writeReg .data v s) =
        .next ((writeReg .data v s).setCrc (crcBytes s.crcAcc (dataBytes n.toNat v))) := exec_crcUpd h1 h4 _
    rw [List.map_cons, runCommands]
    simp only [hexec]
    rw [hd, List.flatMap_cons, crcBytes, crcBytes, crcBytes, List.foldl_append]
    rfl

/-- Settles O20: by induction over the list, from the value CRC_INIT sets. -/
theorem crcValueAnyGrouping : Obligations.CrcValueAnyGrouping := by
  intro s cs hn
  obtain ⟨d, hd⟩ := runCommands_crcUpd cs (s.setCrc 0xFFFFFFFF#32) hn
  exact ⟨_, _, exec_crcInit s, hd, rfl, rfl, rfl, rfl, rfl, rfl⟩

/-- Settles O21: a refused command changes only the record, any other only the CRC register. -/
theorem crcCommandsFrame : Obligations.CrcCommandsFrame := by
  intro i s t hi h
  obtain ⟨e, rfl⟩ | ⟨c, rfl⟩ : (∃ e, t = raise e s) ∨ ∃ c, t = s.setCrc c := by
    refine (exec_cases h).imp_right fun ht => ?_
    obtain rfl | rfl | ⟨n, rfl⟩ := hi
    · exact ⟨_, ht⟩
    · exact ⟨_, ht.2⟩
    · exact ⟨_, ht⟩
  · exact ⟨raise_regs s e, raise_packer s e, raise_comp s e, raise_port s e, by rw [raise_out], by rw [raise_out],
      by rw [raise_out], fun a => by rw [raise_out], .inr ⟨raise_crcAcc s e, e, rfl⟩⟩
  · exact ⟨rfl, rfl, rfl, rfl, rfl, rfl, rfl, fun _ => rfl, .inl rfl⟩

end Sys2Proof.Proofs
end

section
/-! PROOFS. 42_compressor.md: CMP_START, CMP_WR and CMP_FINISH (R86 to R91), and the result a stream leaves. -/

namespace Sys2Proof.Proofs
open Sys2Proof Sys2Proof.Machine

/-! ### CMP_START and CMP_WR -/

theorem exec_cmpStart {s : State} (ho : s.comp.cmpOpen = false) : exec .cmpStart s = .next (startStream s) :=
  exec_of_no_refusal (by rw [refusal, ho, if_neg Bool.false_ne_true])

/-- Settles O29: `startStream` sets each field named and no other. -/
theorem cmpStartResult : Obligations.CmpStartResult :=
  fun _ ho => ⟨_, exec_cmpStart ho, rfl, rfl, rfl, rfl, fun _ => rfl, rfl, rfl, rfl, rfl, rfl⟩

/-- The sums stay those of the input as one byte enters. -/
theorem enter_sums {c : Compressor} (h : (c.adlerA, c.adlerB) = adlerSums c.cmpIn) (x : Byte) :
    ((c.enter x).adlerA, (c.enter x).adlerB) = adlerSums (c.enter x).cmpIn := by
  rw [enter_cmpIn, adlerSums_append_one, ← h]
  rfl

theorem foldl_enter_sums (xs : List Byte) {c : Compressor} (h : (c.adlerA, c.adlerB) = adlerSums c.cmpIn) :
    ((xs.foldl Compressor.enter c).adlerA, (xs.foldl Compressor.enter c).adlerB) =
      adlerSums (xs.foldl Compressor.enter c).cmpIn := by
  induction xs generalizing c with
  | nil => exact h
  | cons x xs ih => exact ih (enter_sums h x)

theorem exec_cmpWr {n : BitVec 3} {s : State} (h1 : 1 ≤ n.toNat) (h4 : n.toNat ≤ 4) (ho : s.comp.cmpOpen = true)
    (ha : s.packer.pkActive = false) :
    exec (.cmpWr n) s = .next (s.setComp ((dataBytes n.toNat s.regs.data).foldl Compressor.enter s.comp)) := by
  rw [← cmpInBytes_eq]
  exact exec_of_no_refusal (by simp [refusal, badCountN4_eq_false h1 h4, ho, ha])

/-- Settles O30: the operand bytes enter one after the other. -/
theorem cmpWrResult : Obligations.CmpWrResult := by
  intro n s h1 h4 ho ha
  refine ⟨_, exec_cmpWr h1 h4 ho ha, rfl, foldl_enter_cmpIn _ _, ?_, (foldl_enter_cmpOpen _ _).trans ho,
    foldl_enter_cmpLevel _ _, foldl_enter_sums _⟩
  rw [setComp_comp, foldl_enter_cmpCount, dataBytes_length]

/-! ### CMP_FINISH -/

section
variable {s : State} (ho : s.comp.cmpOpen = true) (ha : s.packer.pkActive = false)
include ho ha

theorem exec_cmpFinish : exec .cmpFinish s = .next (finishStream s) :=
  exec_of_no_refusal (by simp [refusal, ho, ha])

/-- CMP_FINISH of a stream whose result fits. -/
theorem exec_cmpFinish_fits (hfit : (zlibStream s.comp.cmpLevel s.comp.cmpIn).length ≤ Config.outRamBytes) :
    exec .cmpFinish s = .next ((closeStream s).setOut
      { outRam := s.out.outRam.writeBytes 0 (zlibStream s.comp.cmpLevel s.comp.cmpIn), outValid := true,
        outLen := BitVec.ofNat 32 (zlibStream s.comp.cmpLevel s.comp.cmpIn).length, cfail := false }) := by
  rw [exec_cmpFinish ho ha, finishStream, finishWith_fits s hfit]

/-- CMP_FINISH of a stream whose result does not fit. -/
theorem exec_cmpFinish_fails (hfail : Config.outRamBytes < (zlibStream s.comp.cmpLevel s.comp.cmpIn).length) :
    exec .cmpFinish s = .next (nextDraw ((closeStream s).setOut
      { outRam := [], outValid := false, outLen := 0#32, cfail := true })) := by
  rw [exec_cmpFinish ho ha, finishStream, finishWith_fails s hfail]

end

/-- The length of a result that fits is not cut to 32 bits. -/
theorem outLen_of_fits {z : List Byte} (hfit : z.length ≤ Config.outRamBytes) : (BitVec.ofNat 32 z.length).toNat = z.length := by
  have hbound := outRamBytes_bounds.2.1
  rw [BitVec.toNat_ofNat, Nat.mod_eq_of_lt]
  omega

/-- A result written from index 0 is read back. -/
theorem read_writeBytes_zero (m : Memory) {z : List Byte} {a : Nat} (h : a < z.length) :
    (m.writeBytes 0 z).read a = z[a]? := by
  rw [Memory.read_writeBytes, if_pos ⟨Nat.zero_le a, by omega⟩, Nat.sub_zero]

/-- A result written from index 0 leaves what lies past it. -/
theorem read_writeBytes_zero_past (m : Memory) {z : List Byte} {a : Nat} (h : z.length ≤ a) :
    (m.writeBytes 0 z).read a = m.read a := by
  rw [Memory.read_writeBytes, if_neg (by omega)]

/-- Settles O31: the result is written from index 0. -/
theorem cmpFinishStoresResult : Obligations.CmpFinishStoresResult :=
  fun _ ho ha hfit => ⟨_, exec_cmpFinish_fits ho ha hfit, outLen_of_fits hfit, rfl, rfl,
    fun _ => read_writeBytes_zero _, fun _ => read_writeBytes_zero_past _, rfl, rfl, rfl, rfl, rfl, rfl⟩

/-- Settles O32: the RAM is emptied and CFAIL set. -/
theorem compressionFailureIsNoError : Obligations.CompressionFailureIsNoError :=
  fun _ ho ha hfail => ⟨_, exec_cmpFinish_fails ho ha hfail, rfl, rfl, rfl, fun _ => rfl, rfl, rfl, rfl, rfl, rfl, rfl, rfl⟩

/-- Settles O33: both results are that of the one level and input, so that both fit, with the same bytes, or both fail. -/
theorem resultDependsOnLevelAndInput : Obligations.ResultDependsOnLevelAndInput := by
  intro s t hso hto hsa hta hlevel hin
  have hz : zlibStream s.comp.cmpLevel s.comp.cmpIn = zlibStream t.comp.cmpLevel t.comp.cmpIn := by rw [hlevel, hin]
  obtain hfit | hfail := le_or_gt (zlibStream t.comp.cmpLevel t.comp.cmpIn).length Config.outRamBytes
  · have hs := exec_cmpFinish_fits hso hsa (hz ▸ hfit)
    rw [hz] at hs
    refine ⟨_, _, hs, exec_cmpFinish_fits hto hta hfit, rfl, rfl, rfl, fun a halt => ?_⟩
    have halt := (outLen_of_fits hfit) ▸ halt
    exact (read_writeBytes_zero _ halt).trans (read_writeBytes_zero _ halt).symm
  · exact ⟨_, _, exec_cmpFinish_fails hso hsa (hz ▸ hfail), exec_cmpFinish_fails hto hta hfail, rfl, rfl, rfl,
      fun _ _ => rfl⟩

/-- Settles O34: command by command; a refused one changes only the record. -/
theorem compressorCommandsFrame : Obligations.CompressorCommandsFrame := by
  intro i s t hi h
  obtain ⟨e, rfl⟩ | ht := exec_cases h
  · exact ⟨raise_regs s e, raise_crcAcc s e, by rw [raise_port], by rw [raise_port], by rw [raise_packer],
      fun _ => raise_packer s e, fun _ a => by rw [raise_out], fun _ a _ => by rw [raise_out],
      fun _ => raise_comp s e ▸ ⟨rfl, List.prefix_rfl⟩, fun _ _ => ⟨raise_out s e, by rw [raise_comp]⟩, .inr ⟨e, rfl⟩⟩
  obtain rfl | rfl | ⟨n, rfl⟩ := hi
  case inl =>
    obtain ⟨-, rfl⟩ := ht
    exact ⟨rfl, rfl, rfl, rfl, rfl, fun hne => absurd rfl hne, fun _ _ => rfl, fun _ _ _ => rfl,
      fun hne => absurd rfl hne, fun hne => absurd rfl hne, .inl rfl⟩
  case inr.inl =>
    obtain ⟨-, -, rfl⟩ := ht
    refine ⟨finishWith_regs _ _ s, finishWith_crcAcc _ _ s, finishWith_pending _ _ s, finishWith_readLog _ _ s,
      by rw [finishWith_packer], fun _ => finishWith_packer _ _ s, fun hne => absurd rfl hne, fun hfit a ha => ?_,
      fun _ => (finishWith_comp _ _ s).symm ▸ ⟨rfl, List.prefix_rfl⟩, fun _ hne => absurd rfl hne,
      .inl (finishWith_error _ _ s)⟩
    rw [finishWith_fits s hfit]
    exact read_writeBytes_zero_past _ ha
  case inr.inr =>
    obtain ⟨-, -, rfl⟩ := ht
    rw [cmpInBytes_eq]
    exact ⟨rfl, rfl, rfl, rfl, rfl, fun _ => rfl, fun _ _ => rfl, fun _ _ _ => rfl,
      fun _ => ⟨foldl_enter_cmpLevel _ _, ⟨_, (foldl_enter_cmpIn _ _).symm⟩⟩,
      fun _ _ => ⟨rfl, foldl_enter_cmpOpen _ _⟩, .inl rfl⟩

end Sys2Proof.Proofs
end

section
/-! PROOFS. 42_compressor.md section 3 and 43_deflate_format.md: the zlib wrapper, Adler-32 in closed form, the validity and the
sizes of finished streams, the container around them, and the fixed Huffman codes. -/

namespace Sys2Proof.Proofs
open Sys2Proof Sys2Proof.Machine

/-! ### The wrapper -/

/-- A finished stream has 2 bytes before the body and 4 after it. -/
theorem zlibStreamWith_length (impl : BitVec 4 → List Byte → List Byte) (level : BitVec 4) (x : List Byte) :
    (zlibStreamWith impl level x).length = (bodyWith impl level x).length + 6 := by
  simp [zlibStreamWith, be32]

/-- The check of the header holds at every level. -/
theorem zlibHeader_check (l : BitVec 4) : (zlibCmf.toNat * 256 + (zlibFlg l).toNat) % 31 = 0 := by
  revert l; decide

theorem zlibFlg_no_dictionary (l : BitVec 4) : (zlibFlg l).getLsbD 5 = false := by
  revert l; decide

/-- Settles O36: 16 levels, evaluated. -/
theorem zlibHeaderByLevel : Obligations.ZlibHeaderByLevel :=
  ⟨rfl, by decide, by decide, by decide, by decide, by decide, by decide, by decide, by decide, zlibHeader_check,
    fun _ _ => rfl⟩

/-! ### Adler-32 -/

/-- The sum of the bytes. -/
def byteSum (xs : List Byte) : Nat := (xs.map BitVec.toNat).sum

/-- The sum of the bytes, byte `i` of `n` weighed by `n - i`. -/
def weightedSum (xs : List Byte) : Nat :=
  ((List.range xs.length).map fun i => (xs.length - i) * (xs.getD i 0#8).toNat).sum

theorem byteSum_append_one (xs : List Byte) (x : Byte) : byteSum (xs ++ [x]) = byteSum xs + x.toNat := by
  simp [byteSum]

theorem byteSum_eq_sum_range (xs : List Byte) :
    byteSum xs = ((List.range xs.length).map fun i => (xs.getD i 0#8).toNat).sum := by
  rw [byteSum]
  congr 1
  refine List.ext_getElem (by simp) fun i hi _ => ?_
  simp at hi
  simp [hi]

/-- One more byte raises the weight of each by one. -/
theorem weightedSum_append_one (xs : List Byte) (x : Byte) :
    weightedSum (xs ++ [x]) = weightedSum xs + byteSum xs + x.toNat := by
  have hold : ∀ i ∈ List.range xs.length, (xs.length + 1 - i) * ((xs ++ [x]).getD i 0#8).toNat =
      (xs.length - i) * (xs.getD i 0#8).toNat + (xs.getD i 0#8).toNat := fun i hi => by
    have hlt := List.mem_range.1 hi
    rw [List.getD_append _ _ _ _ hlt, Nat.succ_sub hlt.le, Nat.succ_mul]
  rw [weightedSum, List.length_append, List.length_singleton, List.range_succ, List.map_append, List.sum_append,
    List.map_congr_left hold, List.sum_map_add, ← byteSum_eq_sum_range, List.map_singleton, List.sum_singleton,
    List.getD_append_right _ _ _ _ le_rfl, weightedSum]
  simp

/-- The running sums are the sums of the bytes, each modulo 65521. -/
theorem adlerSums_val (xs : List Byte) :
    (adlerSums xs).1.val = (1 + byteSum xs) % 65521 ∧ (adlerSums xs).2.val = (xs.length + weightedSum xs) % 65521 := by
  induction xs using List.reverseRecOn with
  | nil => exact ⟨rfl, rfl⟩
  | append_singleton xs x ih =>
    obtain ⟨ha, hb⟩ := ih
    rw [adlerSums_append_one, byteSum_append_one, weightedSum_append_one, List.length_append, List.length_singleton]
    simp only [adlerStep, Fin.ofNat, ha, hb, Config.adlerMod]
    omega

/-- Settles O37: the sums by induction over the string, one more byte at its end. -/
theorem adlerClosedForm : Obligations.AdlerClosedForm := by
  intro xs a b
  obtain ⟨ha, hb⟩ := adlerSums_val xs
  refine ⟨ha, hb, ?_⟩
  rw [adler32, adlerWord_toNat, ha, hb]
  rfl

/-! ### Validity -/

/-- The body of every level 0 to 9 inflates to the input. -/
theorem inflate_bodyWith {impl : BitVec 4 → List Byte → List Byte} (hlaws : DeflateLaws impl) {level : BitVec 4}
    (hlevel : level.toNat ≤ 9) (x : List Byte) : inflate (bodyWith impl level x) = some x := by
  unfold bodyWith
  split_ifs with h
  · exact inflate_stored x
  · have hpos : level.toNat ≠ 0 := fun h0 => h (BitVec.eq_of_toNat_eq h0)
    exact hlaws.lossless level x (by omega) hlevel

/-- Settles O38: the header, the body and the sum each stand at their place in the stream. -/
theorem finishedStreamIsValid : Obligations.FinishedStreamIsValid := by
  intro impl hlaws level x hlevel
  have hlen := zlibStreamWith_length impl level x
  have hbody : ((zlibStreamWith impl level x).drop 2).take ((zlibStreamWith impl level x).length - 6) =
      bodyWith impl level x := by
    rw [hlen, Nat.add_sub_cancel, zlibStreamWith, List.append_assoc]
    exact List.take_left
  have hsum : (zlibStreamWith impl level x).drop ((zlibStreamWith impl level x).length - 4) = be32 (adler32 x) := by
    rw [hlen, zlibStreamWith]
    refine List.drop_left' ?_
    simp
  have hcmf : (zlibStreamWith impl level x).getD 0 0#8 = zlibCmf := rfl
  have hflg : (zlibStreamWith impl level x).getD 1 0#8 = zlibFlg level := rfl
  rw [validStream, hbody, hsum, inflate_bodyWith hlaws hlevel, hcmf, hflg, zlibFlg_no_dictionary, zlibHeader_check, hlen]
  simp [zlibCmf]

/-! ### The all-background image -/

theorem sizeLawInput_length : sizeLawInput.length = 1984 := by decide +kernel

/-- Settles O39: at level 0 one stored block around 1984 bytes, at level 9 the size law. -/
theorem backgroundImageSizes : Obligations.BackgroundImageSizes := by
  intro impl hlaws
  have h0 : (zlibStreamWith impl 0#4 sizeLawInput).length = 1995 := by
    have hbody : bodyWith impl 0#4 sizeLawInput = stored sizeLawInput := if_pos rfl
    rw [zlibStreamWith_length, hbody, stored_length, blockCount, sizeLawInput_length]
    rfl
  have h9 := hlaws.size
  exact ⟨h0, h9, by omega⟩

theorem be32_length (v : Word) : (be32 v).length = 4 := rfl

/-- A chunk adds 12 bytes to its payload. -/
theorem chunk_length (ty : Word) (payload : List Byte) : (chunk ty payload).length = payload.length + 12 := by
  simp only [chunk, chunkWith, List.length_append, be32_length]
  omega

theorem container_length (w h : Word) (tag : Byte) (z : List Byte) : (container w h tag z).length = z.length + 75 := by
  have hsig : signature.length = 8 := rfl
  have hhead : (headerPayload w h tag).length = 13 := rfl
  have hpal : palettePayload.length = 6 := rfl
  have hnil : ([] : List Byte).length = 0 := rfl
  simp only [container, List.length_append, chunk_length]
  omega

/-- The terminator chunk, with its fixed CRC. -/
theorem chunk_tagIend : chunk tagIend [] =
    [0x00#8, 0x00#8, 0x00#8, 0x00#8, 0x49#8, 0x45#8, 0x4E#8, 0x44#8, 0xAE#8, 0x42#8, 0x60#8, 0x82#8] := by
  decide +kernel

theorem drop_append_length_sub (a : List Byte) {b : List Byte} {n : Nat} (hb : b.length = n) :
    (a ++ b).drop ((a ++ b).length - n) = b :=
  List.drop_left' (by rw [List.length_append, hb, Nat.add_sub_cancel])

/-- Settles O40: 75 bytes above a stream of at most 948; the first and the last part of the container are constant. -/
theorem containerOfBackgroundImage : Obligations.ContainerOfBackgroundImage := by
  refine ⟨container_length, ?_⟩
  intro impl hlaws tag out
  have hlen : out.length = _ := container_length 240#32 64#32 tag (zlibStreamWith impl 9#4 sizeLawInput)
  have h9 := hlaws.size
  refine ⟨by omega, rfl, ?_⟩
  rw [← chunk_tagIend]
  exact drop_append_length_sub _ (chunk_length _ _)

/-! ### The fixed Huffman codes -/

/-- Symbols of one length in a row have consecutive codes from the next one of that length. -/
theorem assignCodes_replicate (n l : Nat) (hl : l ≠ 0) (next : List Nat) (hlt : l < next.length) (sym : Nat)
    (lens : List Nat) :
    assignCodes next sym (List.replicate n l ++ lens) =
      (List.range n).map (fun k => ⟨sym + k, l, next.getD l 0 + k⟩) ++
        assignCodes (next.set l (next.getD l 0 + n)) (sym + n) lens := by
  induction n generalizing next sym with
  | zero =>
    rw [List.getD_eq_getElem _ _ hlt]
    simp
  | succ n ih =>
    rw [List.replicate_succ, List.cons_append, assignCodes, if_neg hl, ih _ (by simpa using hlt)]
    simp [List.range_succ_eq_map, hlt, Function.comp_def, Nat.add_comm, Nat.add_left_comm, Nat.add_assoc]

theorem firstCode_fixedLitLens : (List.range (maxCodeLen + 1)).map (firstCode fixedLitLens) =
    [0, 0, 0, 0, 0, 0, 0, 0, 48, 400, 1024, 2048, 4096, 8192, 16384, 32768] := by
  decide +kernel

/-- The fixed literal/length code, range by range (43_deflate_format.md R107). -/
theorem buildCode_fixedLitLens :
    buildCode fixedLitLens =
      (List.range 144).map (fun k => ⟨0 + k, 8, 0x30 + k⟩) ++ ((List.range 112).map (fun k => ⟨144 + k, 9, 0x190 + k⟩) ++
        ((List.range 24).map (fun k => ⟨256 + k, 7, 0 + k⟩) ++ (List.range 8).map (fun k => ⟨280 + k, 8, 0xC0 + k⟩))) := by
  rw [buildCode, firstCode_fixedLitLens, fixedLitLens, List.append_assoc, List.append_assoc,
    assignCodes_replicate _ _ (by decide) _ (by decide), assignCodes_replicate _ _ (by decide) _ (by decide),
    assignCodes_replicate _ _ (by decide) _ (by decide), ← List.append_nil (List.replicate 8 8),
    assignCodes_replicate _ _ (by decide) _ (by decide), assignCodes, List.append_nil]
  rfl

/-- The fixed distance code. -/
theorem buildCode_fixedDistLens : buildCode fixedDistLens = (List.range 32).map (fun k => ⟨0 + k, 5, 0 + k⟩) := by
  rw [buildCode, fixedDistLens, ← List.append_nil (List.replicate 32 5),
    assignCodes_replicate _ _ (by decide) _ (by decide), assignCodes, List.append_nil]
  rfl

/-- Settles O41: the codes are those of the ranges in order. -/
theorem fixedHuffmanCodes : Obligations.FixedHuffmanCodes := by
  unfold Obligations.FixedHuffmanCodes
  rw [buildCode_fixedLitLens, buildCode_fixedDistLens]
  refine ⟨fun s hs => ?_, fun s hs => ?_, fun s hs => ?_, fun s hs => ?_, fun s hs => ?_, by simp, by simp⟩
  all_goals simp [hs]

end Sys2Proof.Proofs
end

section
/-! PROOFS. 41_packer.md: PK_ROW, PK_PIX and PK_BITS (R75, R77, R78), the row format (R74) and rows fed by any mix of them
(R79). -/

namespace Sys2Proof.Proofs
open Sys2Proof Sys2Proof.Machine

/-! ### The commands in a row -/

theorem exec_pkRow {s : State} (ho : s.comp.cmpOpen = true) (ha : s.packer.pkActive = false) (hw : s.regs.width ≠ 0#32) :
    exec .pkRow s = .next (startRow s) :=
  exec_of_no_refusal (by simp [refusal, ho, ha, hw])

/-- Settles O22: `startRow` sets each field named and no other. -/
theorem pkRowResult : Obligations.PkRowResult :=
  fun _ ho ha hw => ⟨_, exec_pkRow ho ha hw, rfl, rfl, rfl, rfl, rfl, ho, rfl, rfl, rfl, rfl, rfl, rfl⟩

theorem exec_pkPix {s : State} (ha : s.packer.pkActive = true) :
    exec .pkPix s = .next (pushBit (pixelBit s.regs.data s.regs.ink) s) :=
  exec_of_no_refusal (by simp [refusal, ha])

/-- Settles O24: the bit is 0 exactly for the ink. -/
theorem pkPixResult : Obligations.PkPixResult := by
  refine fun s ha => ⟨fun h => ?_, fun h => ?_⟩
  · rw [exec_pkPix ha, pixelBit, beq_iff_eq.2 h, Bool.not_true]
  · rw [exec_pkPix ha, pixelBit, beq_eq_false_iff_ne.2 h, Bool.not_false]

theorem exec_pkBits {n : BitVec 6} {s : State} (ha : s.packer.pkActive = true) (h1 : 1 ≤ n.toNat) (h32 : n.toNat ≤ 32)
    (hleft : n.toNat ≤ s.packer.pkW.toNat - s.packer.pkX.toNat) :
    exec (.pkBits n) s = .next (pushBits (dataBits n.toNat s.regs.data) s) :=
  exec_of_no_refusal (by simp [refusal, badCountN32_eq_false h1 h32, ha, hleft])

/-- Settles O25: the overrun is the one check left. -/
theorem pkBitsResult : Obligations.PkBitsResult := by
  refine fun n s ha hx h1 h32 => ⟨fun hfit => ?_, fun hover => exec_of_refusal ?_⟩
  · rw [← pushBits_eq_foldl]
    exact exec_pkBits ha h1 h32 (by omega)
  · have hgt : n.toNat > s.packer.pkW.toNat - s.packer.pkX.toNat := by omega
    simp [refusal, badCountN32_eq_false h1 h32, ha, hgt]

/-- Settles O28: command by command; a refused one changes only the record. -/
theorem packerCommandsFrame : Obligations.PackerCommandsFrame := by
  intro i s t hi h
  obtain ⟨e, rfl⟩ | ht := exec_cases h
  · exact ⟨raise_regs s e, raise_crcAcc s e, raise_port s e, by rw [raise_out], by rw [raise_out], by rw [raise_out],
      fun a => by rw [raise_out], by rw [raise_comp], by rw [raise_comp], raise_comp s e ▸ List.prefix_rfl,
      fun _ => by rw [raise_packer], .inr ⟨e, rfl⟩⟩
  have hbits : ∀ bs, t = pushBits bs s → t.comp.cmpOpen = s.comp.cmpOpen ∧ t.comp.cmpLevel = s.comp.cmpLevel ∧
      s.comp.cmpIn <+: t.comp.cmpIn ∧ t.packer.pkW = s.packer.pkW := fun bs hb => by
    obtain ⟨hw, xs, hx⟩ := packBits_cases bs (s.packer, s.comp)
    rw [hb, pushBits_comp, pushBits_packer, hx, foldl_enter_cmpOpen, foldl_enter_cmpLevel, foldl_enter_cmpIn]
    exact ⟨rfl, rfl, List.prefix_append _ _, hw⟩
  obtain rfl | rfl | ⟨n, rfl⟩ := hi
  case inl =>
    obtain ⟨-, -, -, rfl⟩ := ht
    exact ⟨rfl, rfl, rfl, rfl, rfl, rfl, fun _ => rfl, rfl, rfl, List.prefix_append _ _, fun hne => absurd rfl hne, .inl rfl⟩
  case inr.inl =>
    obtain ⟨-, rfl⟩ := ht
    obtain ⟨ho, hl, hin, hw⟩ := hbits [_] rfl
    exact ⟨rfl, rfl, rfl, rfl, rfl, rfl, fun _ => rfl, ho, hl, hin, fun _ => hw, .inl rfl⟩
  case inr.inr =>
    obtain ⟨-, -, -, -, rfl⟩ := ht
    obtain ⟨ho, hl, hin, hw⟩ := hbits _ rfl
    exact ⟨rfl, rfl, rfl, rfl, rfl, rfl, fun _ => rfl, ho, hl, hin, fun _ => hw, .inl rfl⟩

/-! ### The row format -/

/-- Bit `7 - i` of packed byte `j` is pixel `8j + i`. -/
theorem rowByte_getLsbD (p : List Bool) (j : Nat) {i : Nat} (hi : i < 8) :
    (rowByte p j).getLsbD (7 - i) = p.getD (8 * j + i) false := by
  simp only [rowByte, rowBit]
  interval_cases i <;> simp [List.range_succ]

theorem getD_false_eq (p : List Bool) (k : Nat) : p.getD k false = if h : k < p.length then p[k] else false := by
  split_ifs with h
  · exact List.getD_eq_getElem _ _ h
  · exact List.getD_eq_default _ _ (Nat.not_lt.1 h)

/-- The packed bytes of a row. -/
def packedBytes (p : List Bool) : List Byte := (List.range ((p.length + 7) / 8)).map (rowByte p)

theorem rowBytes_eq (f : Byte) (p : List Bool) : rowBytes f p = f :: packedBytes p := rfl

theorem packedBytes_length (p : List Bool) : (packedBytes p).length = (p.length + 7) / 8 := by simp [packedBytes]

/-- Settles O26: bit by bit, and byte by byte. -/
theorem rowBytesFormat : Obligations.RowBytesFormat := by
  refine ⟨fun p j i hi => (rowByte_getLsbD p j hi).trans (getD_false_eq p _), fun f p => ⟨?_, rfl, fun j hj => ?_⟩⟩
  · rw [rowBytes_eq, List.length_cons, packedBytes_length, Nat.add_comm]
  · rw [rowBytes_eq, List.getElem?_cons_succ, packedBytes]
    simp [hj]

/-- A packed byte is its 8 pixels. -/
theorem rowByte_congr {p q : List Bool} {j k : Nat}
    (h : ∀ i < 8, p.getD (8 * j + i) false = q.getD (8 * k + i) false) : rowByte p j = rowByte q k := by
  refine BitVec.eq_of_getLsbD_eq fun m hm => ?_
  have hm7 : m = 7 - (7 - m) := by omega
  rw [hm7, rowByte_getLsbD p j (by omega), rowByte_getLsbD q k (by omega)]
  exact h _ (by omega)

/-- The packed bytes of a row of more than 8 pixels: that of the first 8, then those of the rest. -/
theorem packedBytes_of_gt {p : List Bool} (h : 8 < p.length) :
    packedBytes p = rowByte (p.take 8) 0 :: packedBytes (p.drop 8) := by
  have hcount : (p.length + 7) / 8 = ((p.drop 8).length + 7) / 8 + 1 := by
    rw [List.length_drop]
    omega
  have hfirst : rowByte p 0 = rowByte (p.take 8) 0 := rowByte_congr fun i hi => by
    simp [hi]
  have hrest : ∀ j, rowByte p (j + 1) = rowByte (p.drop 8) j := fun j => rowByte_congr fun i _ => by
    have hindex : 8 * (j + 1) + i = 8 + (8 * j + i) := by omega
    simp [hindex]
  rw [packedBytes, hcount, List.range_succ_eq_map, List.map_cons, List.map_map, hfirst, packedBytes]
  exact congrArg _ (List.map_congr_left fun j _ => hrest j)

/-- A row of 1 to 8 pixels has one packed byte. -/
theorem packedBytes_of_le {p : List Bool} (hne : p ≠ []) (h : p.length ≤ 8) : packedBytes p = [rowByte p 0] := by
  have hpos := List.length_pos_iff.2 hne
  have hcount : (p.length + 7) / 8 = 1 := by omega
  rw [packedBytes, hcount]
  rfl

/-! ### The partial byte -/

theorem shiftIn_getLsbD (acc : Byte) (b : Bool) {m : Nat} (hm : m < 8) :
    (shiftIn acc b).getLsbD m = if m = 0 then b else acc.getLsbD (m - 1) := by
  unfold shiftIn
  cases m with
  | zero => cases b <;> simp
  | succ m => cases b <;> simp [hm, Nat.lt_of_succ_lt hm]

/-- The bits shifted into an empty partial byte, the last in bit 0. -/
theorem foldl_shiftIn_getLsbD (ps : List Bool) {m : Nat} (hm : m < 8) :
    (ps.foldl shiftIn 0#8).getLsbD m = (decide (m < ps.length) && ps.getD (ps.length - 1 - m) false) := by
  induction ps using List.reverseRecOn generalizing m with
  | nil => simp
  | append_singleton ps b ih =>
    rw [List.foldl_append, List.foldl_cons, List.foldl_nil, shiftIn_getLsbD _ _ hm, List.length_append,
      List.length_singleton, Nat.add_sub_cancel]
    split_ifs with h
    · simp [h]
    · rw [ih (by omega)]
      by_cases hlt : m - 1 < ps.length
      · rw [List.getD_append _ _ _ _ (by omega)]
        have h1 : m < ps.length + 1 := by omega
        have h2 : ps.length - 1 - (m - 1) = ps.length - m := by omega
        simp [hlt, h1, h2]
      · have h1 : ¬ m < ps.length + 1 := by omega
        simp [hlt, h1]

/-- At most 8 pixels shifted into an empty byte, and then up to its high end, are their packed byte. -/
theorem foldl_shiftIn_shiftLeft {ps : List Bool} (h : ps.length ≤ 8) :
    ps.foldl shiftIn 0#8 <<< (8 - ps.length) = rowByte ps 0 := by
  refine BitVec.eq_of_getLsbD_eq fun m hm => ?_
  have hm7 : m = 7 - (7 - m) := by omega
  conv_rhs => rw [hm7, rowByte_getLsbD ps 0 (by omega)]
  rw [BitVec.getLsbD_shiftLeft, foldl_shiftIn_getLsbD _ (by omega)]
  by_cases hlow : m < 8 - ps.length
  · have hpast : ps.getD (8 * 0 + (7 - m)) false = false := List.getD_eq_default _ _ (by omega)
    rw [hpast]
    simp [hlow]
  · have h1 : m - (8 - ps.length) < ps.length := by omega
    have h2 : ps.length - 1 - (m - (8 - ps.length)) = 7 - m := by omega
    simp [hm, hlow, h1, h2]

/-! ### Pushing the pixels of a row -/

theorem packBits_nil (u : Units) : packBits [] u = u := rfl

theorem packBits_cons (b : Bool) (ps : List Bool) (u : Units) : packBits (b :: ps) u = packBits ps (packBit b u) := rfl

theorem pushIntoByte_pkActive (b : Bool) (u : Units) : (pushIntoByte b u).1.pkActive = u.1.pkActive := by
  unfold pushIntoByte; split <;> rfl

section
variable {u : Units}

theorem pkX_add_one_toNat (h : u.1.pkX.toNat < u.1.pkW.toNat) : (u.1.pkX + 1).toNat = u.1.pkX.toNat + 1 := by
  bv_omega

/-- A pixel before the last leaves the row active. -/
theorem not_last_of_lt (h : u.1.pkX.toNat + 1 < u.1.pkW.toNat) : ¬ u.1.pkX + 1 = u.1.pkW := fun heq => by
  have hx := pkX_add_one_toNat (u := u) (by omega)
  rw [heq] at hx
  omega

theorem last_of_eq (h : u.1.pkX.toNat + 1 = u.1.pkW.toNat) : u.1.pkX + 1 = u.1.pkW :=
  BitVec.eq_of_toNat_eq ((pkX_add_one_toNat (by omega)).trans h)

/-- Pixels before the last leave the row active and are counted. -/
theorem packBits_before_last (ps : List Bool) (h : u.1.pkX.toNat + ps.length < u.1.pkW.toNat) :
    (packBits ps u).1.pkActive = u.1.pkActive ∧ (packBits ps u).1.pkX.toNat = u.1.pkX.toNat + ps.length ∧
      (packBits ps u).1.pkW = u.1.pkW := by
  induction ps generalizing u with
  | nil => exact ⟨rfl, rfl, rfl⟩
  | cons b ps ih =>
    rw [List.length_cons] at h ⊢
    have hx := pkX_add_one_toNat (u := u) (by omega)
    rw [packBits_cons, packBit_of_not_last (not_last_of_lt (by omega))]
    obtain ⟨ha, hX, hW⟩ := ih (u := pushIntoByte b u) (by rw [pushIntoByte_pkX, pushIntoByte_pkW, hx]; omega)
    rw [pushIntoByte_pkX, hx] at hX
    exact ⟨ha.trans (pushIntoByte_pkActive b u), by omega, hW.trans pushIntoByte_pkW⟩

/-- Pixels that neither fill the byte nor end the row stay in the partial byte. -/
theorem packBits_partial (ps : List Bool) (hbits : u.1.pkNbits.toNat + ps.length < 8)
    (h : u.1.pkX.toNat + ps.length < u.1.pkW.toNat) :
    packBits ps u =
      ({ u.1 with
          pkAcc := ps.foldl shiftIn u.1.pkAcc
          pkNbits := u.1.pkNbits + BitVec.ofNat 3 ps.length
          pkX := u.1.pkX + BitVec.ofNat 32 ps.length }, u.2) := by
  induction ps generalizing u with
  | nil => simp [packBits_nil]
  | cons b ps ih =>
    rw [List.length_cons] at h hbits ⊢
    have hx := pkX_add_one_toNat (u := u) (by omega)
    have hn : (u.1.pkNbits + 1).toNat = u.1.pkNbits.toNat + 1 := by bv_omega
    rw [packBits_cons, packBit_of_not_last (not_last_of_lt (by omega)), pushIntoByte_of_not_full (by omega),
      ih (by simp only [hn]; omega) (by simp only [hx]; omega)]
    rw [Nat.add_comm ps.length 1, BitVec.ofNat_add, BitVec.ofNat_add, ← BitVec.add_assoc, ← BitVec.add_assoc]
    rfl

end

/-! ### A whole row -/

/-- No bit is in the partial byte. -/
def ByteEmpty (p : Packer) : Prop := p.pkAcc = 0#8 ∧ p.pkNbits = 0#3

/-- The packer after a row's last pixel (41_packer.md R76). -/
def endedRow (p : Packer) : Packer :=
  { p with pkActive := false, pkX := 0#32, pkAcc := 0#8, pkNbits := 0#3, pkRows := p.pkRows + 1 }

/-- The packer after 8 pixels from an empty byte. -/
def advancedByte (p : Packer) : Packer := { p with pkX := p.pkX + 8, pkAcc := 0#8, pkNbits := 0#3 }

section
variable {u : Units} {qs : List Bool} {b : Bool}

/-- Fewer than 8 pixels from an empty byte, none of them the row's last, only shift it. -/
theorem packBits_of_byteEmpty (hempty : ByteEmpty u.1) (h8 : qs.length < 8)
    (h : u.1.pkX.toNat + qs.length < u.1.pkW.toNat) :
    packBits qs u =
      ({ u.1 with
          pkAcc := qs.foldl shiftIn 0#8
          pkNbits := BitVec.ofNat 3 qs.length
          pkX := u.1.pkX + BitVec.ofNat 32 qs.length }, u.2) := by
  obtain ⟨hacc, hnbits⟩ := hempty
  rw [packBits_partial qs (by rw [hnbits]; simpa using h8) h, hacc, hnbits, BitVec.zero_add]

theorem toNat_ofNat3_of_lt {n : Nat} (h : n < 8) : (BitVec.ofNat 3 n).toNat = n := Nat.mod_eq_of_lt h

/-- Eight pixels from an empty byte that do not end the row enter the compressor as their packed byte. -/
theorem packBits_byte (hempty : ByteEmpty u.1) (h7 : qs.length = 7) (h : u.1.pkX.toNat + 8 < u.1.pkW.toNat) :
    packBits (qs ++ [b]) u = (advancedByte u.1, u.2.enter (rowByte (qs ++ [b]) 0)) := by
  have hbyte : shiftIn (qs.foldl shiftIn 0#8) b = rowByte (qs ++ [b]) 0 := by
    rw [← foldl_shiftIn_shiftLeft (by simp [h7]), List.foldl_concat, List.length_append, h7]
    exact (BitVec.shiftLeft_zero _).symm
  have hx : (u.1.pkX + BitVec.ofNat 32 qs.length).toNat = u.1.pkX.toNat + 7 := by rw [h7]; bv_omega
  rw [packBits_append, packBits_of_byteEmpty hempty (by omega) (by omega), packBits_cons, packBits_nil,
    packBit_of_not_last (not_last_of_lt (by simp only [hx]; omega)),
    pushIntoByte_of_full (by simp only [toNat_ofNat3_of_lt (show qs.length < 8 by omega)]; omega)]
  simp only [hbyte, h7, advancedByte, BitVec.add_assoc]
  rfl

/-- The last 1 to 8 pixels of a row from an empty byte enter the compressor as their packed byte, and the row ends. -/
theorem packBits_last (hempty : ByteEmpty u.1) (h8 : qs.length < 8)
    (h : u.1.pkX.toNat + qs.length + 1 = u.1.pkW.toNat) :
    packBits (qs ++ [b]) u = (endedRow u.1, u.2.enter (rowByte (qs ++ [b]) 0)) := by
  have hbyte := foldl_shiftIn_shiftLeft (ps := qs ++ [b]) (by simp; omega)
  rw [List.foldl_concat, List.length_append, List.length_singleton] at hbyte
  have hx : (u.1.pkX + BitVec.ofNat 32 qs.length).toNat = u.1.pkX.toNat + qs.length := by bv_omega
  rw [packBits_append, packBits_of_byteEmpty hempty h8 (by omega), packBits_cons, packBits_nil,
    packBit_of_last (last_of_eq (by simp only [hx]; exact h)), ← hbyte]
  refine Prod.ext rfl ?_
  by_cases hfull : qs.length + 1 = 8
  · rw [flushPartial_pushIntoByte_of_full (by simp only [toNat_ofNat3_of_lt h8]; exact hfull), hfull]
    simp
  · rw [flushPartial_pushIntoByte_of_not_full (by simp only [toNat_ofNat3_of_lt h8]; exact hfull)]
    simp only [toNat_ofNat3_of_lt h8]

end

/-- The remaining pixels of a row from an empty byte enter the compressor as their packed bytes, and the row ends. -/
theorem packBits_row (ps : List Bool) (u : Units) (hempty : ByteEmpty u.1) (hne : ps ≠ [])
    (h : u.1.pkX.toNat + ps.length = u.1.pkW.toNat) :
    packBits ps u = (endedRow u.1, (packedBytes ps).foldl Compressor.enter u.2) := by
  induction hn : ps.length using Nat.strong_induction_on generalizing ps u with
  | _ n ih =>
    by_cases h8 : ps.length ≤ 8
    · rw [packedBytes_of_le hne h8]
      obtain ⟨qs, b, rfl⟩ := (List.eq_nil_or_concat' ps).resolve_left hne
      rw [List.length_append, List.length_singleton] at h h8
      exact packBits_last hempty (by omega) (by omega)
    · have hgt : 8 < ps.length := Nat.lt_of_not_le h8
      have hlen8 : (ps.take 8).length = 8 := by rw [List.length_take]; omega
      have hrest : (ps.drop 8).length = ps.length - 8 := List.length_drop
      have hbyte : packBits (ps.take 8) u = (advancedByte u.1, u.2.enter (rowByte (ps.take 8) 0)) := by
        obtain ⟨qs, b, hqs⟩ := (List.eq_nil_or_concat' (ps.take 8)).resolve_left
          (List.ne_nil_of_length_pos (by omega))
        rw [hqs, List.length_append, List.length_singleton] at hlen8
        rw [hqs]
        exact packBits_byte hempty (by omega) (by omega)
      have hx : (u.1.pkX + 8).toNat = u.1.pkX.toNat + 8 := by bv_omega
      conv_lhs => rw [← List.take_append_drop 8 ps]
      rw [packBits_append, hbyte, packedBytes_of_gt hgt,
        ih _ (by omega) (ps.drop 8) _ ⟨rfl, rfl⟩ (List.ne_nil_of_length_pos (by omega))
          (show (u.1.pkX + 8).toNat + (ps.drop 8).length = u.1.pkW.toNat by omega) rfl]
      rfl

/-! ### The commands that feed a row -/

/-- A legal command that packs pixels packs at least one. -/
theorem pixelBits_length_pos {c : Word × Instr} (h : packsPixels c.2 = true) (ink : Word) :
    0 < (pixelBits ink c).length := by
  obtain ⟨v, i⟩ := c
  cases i with
  | pkPix => exact Nat.one_pos
  | pkBits n =>
    rw [pixelBits, dataBits_length]
    exact ((countN32Ok_iff n).1 h).1
  | _ => exact absurd h Bool.false_ne_true

/-- Inside a row with enough pixels left, a legal command that packs pixels pushes its bits. -/
theorem exec_packsPixels {i : Instr} (h : packsPixels i = true) (v : Word) {s : State} (ha : s.packer.pkActive = true)
    (hleft : s.packer.pkX.toNat + (pixelBits s.regs.ink (v, i)).length ≤ s.packer.pkW.toNat) :
    exec i (writeReg .data v s) = .next (pushBits (pixelBits s.regs.ink (v, i)) (writeReg .data v s)) := by
  cases i with
  | pkPix => exact exec_pkPix (s := writeReg .data v s) ha
  | pkBits n =>
    obtain ⟨h1, h32⟩ := (countN32Ok_iff n).1 h
    rw [pixelBits, dataBits_length] at hleft
    have hleft' : n.toNat ≤ (writeReg .data v s).packer.pkW.toNat - (writeReg .data v s).packer.pkX.toNat :=
      show n.toNat ≤ s.packer.pkW.toNat - s.packer.pkX.toNat by omega
    exact exec_pkBits (s := writeReg .data v s) ha h1 h32 hleft'
  | _ => exact absurd h Bool.false_ne_true

/-- The row is still active after pixels that leave some of it over. -/
theorem row_after_pixels {s : State} {bs : List Bool} {rest : Nat} (v : Word) (ha : s.packer.pkActive = true)
    (hpos : 0 < rest) (hleft : s.packer.pkX.toNat + (bs.length + rest) ≤ s.packer.pkW.toNat) :
    (pushBits bs (writeReg .data v s)).packer.pkActive = true ∧
      (pushBits bs (writeReg .data v s)).packer.pkX.toNat + rest ≤
        (pushBits bs (writeReg .data v s)).packer.pkW.toNat := by
  have hlt : s.packer.pkX.toNat + bs.length < s.packer.pkW.toNat := by omega
  obtain ⟨hactive, hx, hw⟩ := packBits_before_last (u := (s.packer, s.comp)) bs hlt
  refine ⟨hactive.trans ha, ?_⟩
  have hx' : (pushBits bs (writeReg .data v s)).packer.pkX.toNat = s.packer.pkX.toNat + bs.length := hx
  have hw' : (pushBits bs (writeReg .data v s)).packer.pkW = s.packer.pkW := hw
  rw [hx', hw']
  omega

theorem flatMap_pixelBits_length_pos {cs : List (Word × Instr)} (hne : cs ≠ []) (hp : ∀ c ∈ cs, packsPixels c.2 = true)
    (ink : Word) : 0 < (cs.flatMap (pixelBits ink)).length := by
  obtain ⟨c, cs, rfl⟩ := List.exists_cons_of_ne_nil hne
  have hpos := pixelBits_length_pos (hp c (List.mem_cons_self ..)) ink
  rw [List.flatMap_cons, List.length_append]
  omega

/-- Commands that pack no more pixels than the active row has left push all their bits, and of the rest only DATA changes. -/
theorem runCommands_packsPixels (cs : List (Word × Instr)) (s : State) (hp : ∀ c ∈ cs, packsPixels c.2 = true)
    (hrow : cs ≠ [] → s.packer.pkActive = true ∧
      s.packer.pkX.toNat + (cs.flatMap (pixelBits s.regs.ink)).length ≤ s.packer.pkW.toNat) :
    ∃ d, runCommands cs s = .next (pushBits (cs.flatMap (pixelBits s.regs.ink)) (writeReg .data d s)) := by
  induction cs generalizing s with
  | nil => exact ⟨s.regs.data, rfl⟩
  | cons c cs ih =>
    obtain ⟨v, i⟩ := c
    obtain ⟨ha, hleft⟩ := hrow (List.cons_ne_nil _ _)
    rw [List.flatMap_cons, List.length_append] at hleft
    have hexec := exec_packsPixels (i := i) (hp _ (List.mem_cons_self ..)) v ha (by omega)
    have hp' : ∀ c ∈ cs, packsPixels c.2 = true := fun c hc => hp c (List.mem_cons_of_mem _ hc)
    obtain ⟨d, hd⟩ := ih (pushBits (pixelBits s.regs.ink (v, i)) (writeReg .data v s)) hp' fun hne =>
      row_after_pixels v ha (flatMap_pixelBits_length_pos hne hp' _) hleft
    refine ⟨d, ?_⟩
    rw [runCommands]
    simp only [hexec]
    rw [hd, List.flatMap_cons, pushBits_append]
    rfl

/-- A row begun by PK_ROW and fed all its pixels: `Row(f, p)` has entered the compressor, the row has ended and is counted,
and of the rest only DATA has changed. -/
theorem runCommands_row (cs : List (Word × Instr)) (s : State) (hw : s.regs.width ≠ 0#32)
    (hp : ∀ c ∈ cs, packsPixels c.2 = true)
    (hlen : (cs.flatMap (pixelBits s.regs.ink)).length = s.regs.width.toNat) :
    ∃ d, runCommands cs (startRow s) = .next ((writeReg .data d s).setUnits
      (endedRow (s.packer.begin s.regs.width),
        (rowBytes s.regs.filter (cs.flatMap (pixelBits s.regs.ink))).foldl Compressor.enter s.comp)) := by
  have hzero : (startRow s).packer.pkX.toNat = 0 := rfl
  have hpos : s.regs.width.toNat ≠ 0 := fun h => hw (BitVec.eq_of_toNat_eq h)
  obtain ⟨d, hd⟩ := runCommands_packsPixels cs (startRow s) hp fun _ => ⟨rfl, by
    rw [hzero, Nat.zero_add]
    exact hlen.le⟩
  have hrow := packBits_row (cs.flatMap (pixelBits s.regs.ink)) ((startRow s).packer, (startRow s).comp) ⟨rfl, rfl⟩
    (List.ne_nil_of_length_pos (by omega)) (by rw [hlen, hzero, Nat.zero_add]; rfl)
  refine ⟨d, hd.trans ?_⟩
  have hunits : pushBits (cs.flatMap (pixelBits s.regs.ink)) (writeReg .data d (startRow s)) =
      (writeReg .data d s).setUnits (packBits (cs.flatMap (pixelBits s.regs.ink)) ((startRow s).packer, (startRow s).comp)) := rfl
  rw [hrow] at hunits
  exact congrArg Host.Outcome.next hunits

/-- Settles O27: the row as `runCommands_row` gives it. -/
theorem rowFedByAnyMixIsRow : Obligations.RowFedByAnyMixIsRow := by
  intro s cs ho ha hw hp hlen
  obtain ⟨d, hd⟩ := runCommands_row cs s hw hp hlen
  exact ⟨_, _, exec_pkRow ho ha hw, hd, foldl_enter_cmpIn _ _, rfl, rfl, rfl, (foldl_enter_cmpOpen _ _).trans ho,
    foldl_enter_cmpLevel _ _, rfl, rfl, rfl⟩

end Sys2Proof.Proofs
end

section
/-! PROOFS. 10_state.md: the invariants of every reachable state (R21, R31, R39), and that a held result is the last stream's
(42_compressor.md R83, R91). -/

namespace Sys2Proof.Proofs
open Sys2Proof Sys2Proof.Machine

/-! ### The invariants part by part -/

/-- The flag invariants read only the five flags and the code. -/
theorem flagInv_of_eq {s t : State} (h : FlagInv s) (hactive : t.packer.pkActive = s.packer.pkActive)
    (hopen : t.comp.cmpOpen = s.comp.cmpOpen) (hout : t.out = s.out) (herror : t.error = s.error) : FlagInv t where
  rowInStream := by rw [hactive, hopen]; exact h.rowInStream
  validClosed := by rw [hout, hopen]; exact h.validClosed
  failInvalid := by rw [hout]; exact h.failInvalid
  errIffCode := by rw [herror]; exact h.errIffCode
  codeRange := by rw [herror]; exact h.codeRange

theorem configInv_of_eq {s t : State} (h : ConfigInv s) (hlevel : t.regs.level = s.regs.level)
    (hfilter : t.regs.filter = s.regs.filter) (hstream : t.comp.cmpLevel = s.comp.cmpLevel) : ConfigInv t where
  level := hlevel ▸ h.level
  streamLevel := hstream ▸ h.streamLevel
  filter := hfilter ▸ h.filter

/-- The invariants read neither the CRC register nor the model's own fields. -/
theorem inv_of_eq {s t : State} (h : Inv s) (hregs : t.regs = s.regs) (hpacker : t.packer = s.packer)
    (hcomp : t.comp = s.comp) (hout : t.out = s.out) (herror : t.error = s.error) : Inv t where
  flags := flagInv_of_eq h.flags (by rw [hpacker]) (by rw [hcomp]) hout herror
  packer := hpacker ▸ h.packer
  input := hcomp ▸ h.input
  output := hout ▸ h.output
  config := configInv_of_eq h.config (by rw [hregs]) (by rw [hregs]) (by rw [hcomp])

/-- A code that a refusal records is one of the table's (60_exceptions.md R122). -/
theorem errorCode_range (e : ErrorName) : errorCode e ≠ 0x00#8 ∧ (errorCode e).toNat ≤ 0x0A := by
  cases e <;> decide

theorem flagInv_raise {s : State} (h : FlagInv s) (e : ErrorName) : FlagInv (raise e s) := by
  cases herr : s.error.err with
  | true => rwa [raise_of_err e herr]
  | false =>
    obtain ⟨hne, hle⟩ := errorCode_range e
    rw [raise_of_no_err e herr]
    exact ⟨h.rowInStream, h.validClosed, h.failInvalid, ⟨fun hf => Bool.noConfusion hf, fun hz => absurd hz hne⟩, hle⟩

theorem inv_raise {s : State} (h : Inv s) (e : ErrorName) : Inv (raise e s) where
  flags := flagInv_raise h.flags e
  packer := (raise_packer s e).symm ▸ h.packer
  input := (raise_comp s e).symm ▸ h.input
  output := (raise_out s e).symm ▸ h.output
  config := configInv_of_eq h.config (by rw [raise_regs]) (by rw [raise_regs]) (by rw [raise_comp])

theorem inv_clearError {s : State} (h : Inv s) : Inv (clearError s) where
  flags := ⟨h.flags.rowInStream, h.flags.validClosed, h.flags.failInvalid, ⟨fun _ => rfl, fun _ => rfl⟩, Nat.zero_le _⟩
  packer := h.packer
  input := h.input
  output := h.output
  config := configInv_of_eq h.config rfl rfl rfl

theorem inv_reset : Inv State.reset where
  flags := ⟨by decide, by decide, by decide, by decide, by decide⟩
  packer := ⟨by decide, by decide, by decide, by decide, by decide⟩
  input := ⟨by decide, by decide⟩
  output := ⟨by decide, by decide, by decide, rfl, fun _ h => absurd h (Nat.not_lt_zero _)⟩
  config := ⟨by decide, by decide, by decide⟩

/-- Settles O55: each invariant evaluated; no result is held. -/
theorem resetMeetsInvariants : Obligations.ResetMeetsInvariants :=
  ⟨inv_reset, fun h => Bool.noConfusion h⟩

theorem inv_resetEngine (s : State) : Inv (resetEngine s) := inv_of_eq inv_reset rfl rfl rfl rfl rfl

/-! ### Accesses -/

theorem inv_busRead {s : State} (h : Inv s) (off : Nat) (w : Width) : Inv (busRead off w s) := by
  unfold busRead
  split_ifs
  · exact inv_of_eq h rfl rfl rfl rfl rfl
  · exact inv_of_eq h rfl rfl rfl rfl rfl
  · exact inv_of_eq (inv_raise h .access) rfl rfl rfl rfl rfl

theorem writeLevel_le {v : Word} {r : Registers} (h : r.level.toNat ≤ 9) : (writeLevel v r).level.toNat ≤ 9 := by
  unfold writeLevel
  split_ifs with hv
  · rw [BitVec.toNat_setWidth]
    omega
  · exact h

theorem writeFilter_le (v : Word) (r : Registers) : (writeFilter v r).filter.toNat ≤ Config.filterLast := by
  unfold writeFilter Config.filterLast
  split_ifs with hv
  · rw [BitVec.toNat_setWidth]
    omega
  · exact Nat.zero_le _

/-- The host's registers enter only the configuration invariants. -/
theorem inv_setRegs {s : State} (h : Inv s) {r : Registers} (hlevel : r.level.toNat ≤ 9)
    (hfilter : r.filter.toNat ≤ Config.filterLast) : Inv (s.setRegs r) where
  flags := flagInv_of_eq h.flags rfl rfl rfl rfl
  packer := h.packer
  input := h.input
  output := h.output
  config := ⟨hlevel, h.config.streamLevel, hfilter⟩

theorem inv_writeReg {s : State} (h : Inv s) (r : Reg) (v : Word) : Inv (writeReg r v s) := by
  cases r with
  | level =>
    have hfilter : (writeLevel v s.regs).filter = s.regs.filter := by unfold writeLevel; split <;> rfl
    exact inv_setRegs h (writeLevel_le h.config.level) (hfilter ▸ h.config.filter)
  | filter =>
    have hlevel : (writeFilter v s.regs).level = s.regs.level := by unfold writeFilter; split <;> rfl
    exact inv_setRegs h (hlevel ▸ h.config.level) (writeFilter_le v s.regs)
  | data | width | ink => exact inv_setRegs h h.config.level h.config.filter
  | _ => exact h

/-! ### The packer -/

/-- One more bit in the partial byte. -/
theorem shiftIn_toNat_lt {acc : Byte} {n : Nat} (h : acc.toNat < 2 ^ n) (b : Bool) : (shiftIn acc b).toNat < 2 ^ (n + 1) := by
  have hacc : (acc <<< 1).toNat < 2 ^ (n + 1) := by
    rw [BitVec.toNat_shiftLeft, Nat.shiftLeft_eq, Nat.pow_succ]
    exact (Nat.mod_le _ _).trans_lt (Nat.mul_lt_mul_of_pos_right h (by decide))
  have hbit : ((BitVec.ofBool b).setWidth 8 : Byte).toNat < 2 ^ (n + 1) :=
    lt_of_lt_of_le (show _ < 2 by cases b <;> decide) (Nat.le_self_pow (Nat.succ_ne_zero n) 2)
  rw [shiftIn, BitVec.toNat_or]
  exact Nat.or_lt_two_pow hacc hbit

theorem packerInv_endedRow (p : Packer) : PackerInv (endedRow p) where
  xLeW := Nat.zero_le _
  pixelLeft := fun h => Bool.noConfusion h
  idle := fun _ => ⟨rfl, rfl, rfl⟩
  nbits := fun h => Bool.noConfusion h
  accBound := Nat.one_pos

/-- A pixel inside a row keeps the packer's invariants: the row ends, or the byte is sent, or the bit stays. -/
theorem packBit_packerInv {u : Units} (h : PackerInv u.1) (ha : u.1.pkActive = true) (b : Bool) :
    PackerInv (packBit b u).1 := by
  have hlt := h.pixelLeft ha
  have hnbits := h.nbits ha
  have hx := pkX_add_one_toNat hlt
  by_cases hlast : u.1.pkX + 1 = u.1.pkW
  · rw [packBit_of_last hlast]
    exact packerInv_endedRow u.1
  have hleft : (u.1.pkX + 1).toNat < u.1.pkW.toNat := by
    have hne : (u.1.pkX + 1).toNat ≠ u.1.pkW.toNat := fun heq => hlast (BitVec.eq_of_toNat_eq heq)
    omega
  have hactive : ¬ u.1.pkActive = false := by rw [ha]; decide
  rw [packBit_of_not_last hlast]
  by_cases hfull : u.1.pkNbits.toNat + 1 = 8
  · rw [pushIntoByte_of_full hfull]
    refine ⟨hleft.le, fun _ => hleft, fun hf => absurd hf hactive, fun _ => ?_, Nat.one_pos⟩
    have hmod : 0 = (u.1.pkX + 1).toNat % 8 := by omega
    exact hmod
  · have hn : (u.1.pkNbits + 1).toNat = u.1.pkNbits.toNat + 1 := by bv_omega
    rw [pushIntoByte_of_not_full hfull]
    refine ⟨hleft.le, fun _ => hleft, fun hf => absurd hf hactive, fun _ => ?_, ?_⟩
    · simp only [hx, hn]
      omega
    · simp only [hn]
      exact shiftIn_toNat_lt h.accBound b

theorem packBits_packerInv (bs : List Bool) {u : Units} (h : PackerInv u.1) (ha : u.1.pkActive = true)
    (hleft : u.1.pkX.toNat + bs.length ≤ u.1.pkW.toNat) : PackerInv (packBits bs u).1 := by
  induction bs generalizing u with
  | nil => exact h
  | cons b bs ih =>
    have hb := packBit_packerInv h ha b
    cases bs with
    | nil => exact hb
    | cons b' bs =>
      rw [List.length_cons, List.length_cons] at hleft
      have hone : u.1.pkX.toNat + [b].length < u.1.pkW.toNat := by rw [List.length_singleton]; omega
      obtain ⟨hactive, hx, hw⟩ := packBits_before_last [b] hone
      refine ih (u := packBit b u) hb (hactive.trans ha) ?_
      have hx' : (packBit b u).1.pkX.toNat = u.1.pkX.toNat + 1 := hx
      have hw' : (packBit b u).1.pkW = u.1.pkW := hw
      rw [hx', hw', List.length_cons]
      omega

/-! ### The effects of the commands -/

theorem inputInv_enter {c : Compressor} (h : InputInv c) (xs : List Byte) : InputInv (xs.foldl Compressor.enter c) where
  count := by rw [foldl_enter_cmpCount, foldl_enter_cmpIn, h.count, List.length_append, BitVec.ofNat_add]
  sums := foldl_enter_sums xs h.sums

section
variable {s : State} (h : Inv s)
include h

theorem inv_startRow (ho : s.comp.cmpOpen = true) (hw : s.regs.width ≠ 0#32) : Inv (startRow s) where
  flags := ⟨fun _ => ho, h.flags.validClosed, h.flags.failInvalid, h.flags.errIffCode, h.flags.codeRange⟩
  packer :=
    { xLeW := Nat.zero_le _
      pixelLeft := fun _ => Nat.pos_of_ne_zero fun hz => hw (BitVec.eq_of_toNat_eq hz)
      idle := fun hf => Bool.noConfusion hf
      nbits := fun _ => rfl
      accBound := Nat.one_pos }
  input := inputInv_enter h.input [s.regs.filter]
  output := h.output
  config := configInv_of_eq h.config rfl rfl rfl

theorem inv_pushBits {bs : List Bool} (ha : s.packer.pkActive = true)
    (hleft : s.packer.pkX.toNat + bs.length ≤ s.packer.pkW.toNat) : Inv (pushBits bs s) := by
  obtain ⟨-, xs, hx⟩ := packBits_cases bs (s.packer, s.comp)
  have hcomp : (pushBits bs s).comp = xs.foldl Compressor.enter s.comp := hx
  have hopen : (pushBits bs s).comp.cmpOpen = s.comp.cmpOpen := by rw [hcomp, foldl_enter_cmpOpen]
  refine ⟨⟨fun _ => hopen.trans (h.flags.rowInStream ha), hopen ▸ h.flags.validClosed, h.flags.failInvalid,
    h.flags.errIffCode, h.flags.codeRange⟩, packBits_packerInv bs h.packer ha hleft, hcomp ▸ inputInv_enter h.input xs, h.output,
    configInv_of_eq h.config rfl rfl (by rw [hcomp, foldl_enter_cmpLevel])⟩

theorem inv_startStream : Inv (startStream s) where
  flags := ⟨fun _ => rfl, fun hv => Bool.noConfusion hv, fun _ => rfl, h.flags.errIffCode, h.flags.codeRange⟩
  packer := ⟨h.packer.xLeW, h.packer.pixelLeft, h.packer.idle, h.packer.nbits, h.packer.accBound⟩
  input := ⟨rfl, rfl⟩
  output := ⟨fun hv => Bool.noConfusion hv, fun _ => rfl, h.output.ramForm, h.output.ramSize,
    fun _ hi => absurd hi (Nat.not_lt_zero _)⟩
  config := ⟨h.config.level, h.config.level, h.config.filter⟩

theorem inv_enterBytes (xs : List Byte) : Inv (s.setComp (xs.foldl Compressor.enter s.comp)) where
  flags := flagInv_of_eq h.flags rfl (foldl_enter_cmpOpen _ _) rfl rfl
  packer := h.packer
  input := inputInv_enter h.input xs
  output := h.output
  config := configInv_of_eq h.config rfl rfl (foldl_enter_cmpLevel _ _)

/-- A closed stream with no row active, and whatever output side that is not both failed and valid. -/
theorem inv_close {o : Output} (ha : s.packer.pkActive = false) (ho : OutputInv o)
    (hfail : o.cfail = true → o.outValid = false) : Inv ((closeStream s).setOut o) where
  flags := ⟨fun hact => absurd (ha.symm.trans hact) (by decide), fun _ => rfl, hfail, h.flags.errIffCode, h.flags.codeRange⟩
  packer := h.packer
  input := ⟨h.input.count, h.input.sums⟩
  output := ho
  config := configInv_of_eq h.config rfl rfl rfl

theorem inv_finishStream (ha : s.packer.pkActive = false) : Inv (finishStream s) := by
  rw [finishStream]
  obtain hfit | hfail := le_or_gt (zlibStream s.comp.cmpLevel s.comp.cmpIn).length Config.outRamBytes
  · rw [finishWith_fits s hfit]
    have hlen := outLen_of_fits hfit
    refine inv_close h ha ⟨fun _ => hlen.trans_le hfit, fun hv => Bool.noConfusion hv,
      Memory.wf_writeBytes 0 _ h.output.ramForm,
      Memory.within_writeBytes 0 _ h.output.ramSize (by rwa [Nat.zero_add]), fun i hi => ?_⟩ fun hc => Bool.noConfusion hc
    have hi := hlen ▸ hi
    simp only [read_writeBytes_zero _ hi, List.getElem?_eq_getElem hi, Option.isSome_some]
  · rw [finishWith_fails s hfail]
    exact inv_of_eq (inv_close h ha ⟨fun hv => Bool.noConfusion hv, fun _ => rfl, rfl, rfl,
      fun _ hi => absurd hi (Nat.not_lt_zero _)⟩ fun _ => rfl) rfl rfl rfl rfl rfl

/-- Every command keeps the invariants. -/
theorem inv_exec {i : Instr} {t : State} (hexec : exec i s = .next t) : Inv t := by
  obtain ⟨e, rfl⟩ | ht := exec_cases hexec
  · exact inv_raise h e
  cases i with
  | nop => exact ht ▸ h
  | srst => exact ht ▸ inv_resetEngine s
  | clrerr => exact ht ▸ inv_clearError h
  | crcInit => exact ht ▸ inv_of_eq h rfl rfl rfl rfl rfl
  | crcUpd n => exact ht ▸ inv_of_eq h rfl rfl rfl rfl rfl
  | crcOut => exact ht.2 ▸ inv_of_eq h rfl rfl rfl rfl rfl
  | pkRow =>
    obtain ⟨ho, -, hw, rfl⟩ := ht
    exact inv_startRow h ho hw
  | pkPix =>
    obtain ⟨ha, rfl⟩ := ht
    exact inv_pushBits h (bs := [_]) ha (h.packer.pixelLeft ha)
  | pkBits n =>
    obtain ⟨ha, hn, -, -, rfl⟩ := ht
    have hx := h.packer.xLeW
    exact inv_pushBits h ha (by rw [dataBits_length]; omega)
  | cmpStart =>
    obtain ⟨-, rfl⟩ := ht
    exact inv_startStream h
  | cmpWr n =>
    obtain ⟨-, -, rfl⟩ := ht
    rw [cmpInBytes_eq]
    exact inv_enterBytes h _
  | cmpFinish =>
    obtain ⟨-, ha, rfl⟩ := ht
    exact inv_finishStream h ha

end

theorem inv_takeEvent {s : State} (h : Inv s) (rest : List Event) : Inv (takeEvent rest s) := inv_of_eq h rfl rfl rfl rfl rfl

/-- Settles O56: a step is nothing, a command, a reset, a read, a register write, a refusal or an ignored access. -/
theorem stepKeepsInvariants : Obligations.StepKeepsInvariants := by
  intro s t h hstep
  obtain ⟨-, rfl⟩ | ⟨e, rest, -, ht⟩ := step_cases hstep
  · exact h
  have h' := inv_takeEvent h rest
  obtain ⟨-, -, -, i, -, -, hexec⟩ | rfl | ⟨off, w, rfl⟩ | ⟨r, v, rfl⟩ | ⟨x, rfl⟩ | rfl := ht
  · exact inv_exec h' hexec
  · exact inv_resetEngine _
  · exact inv_busRead h' off w
  · exact inv_writeReg h' r v
  · exact inv_raise h' x
  · exact h'

/-! ### The held result -/

section
variable {s t : State}

theorem holdsResult_of_eq (h : HoldsResult s) (hout : t.out = s.out) (hlevel : t.comp.cmpLevel = s.comp.cmpLevel)
    (hin : t.comp.cmpIn = s.comp.cmpIn) : HoldsResult t := by
  unfold HoldsResult
  rw [hout, hlevel, hin]
  exact h

theorem holdsResult_of_invalid (h : t.out.outValid = false) : HoldsResult t := fun hv =>
  absurd (h.symm.trans hv) (by decide)

/-- While a stream is open no result is held. -/
theorem holdsResult_of_open (h : Inv s) (ho : s.comp.cmpOpen = true) (hout : t.out = s.out) : HoldsResult t :=
  holdsResult_of_invalid <| by
    rw [hout]
    exact Bool.eq_false_iff.2 fun hv => absurd (ho.symm.trans (h.flags.validClosed hv)) (by decide)

/-- A finished stream is held as its own result, or nothing is. -/
theorem holdsResult_finishStream (s : State) : HoldsResult (finishStream s) := by
  rw [finishStream]
  obtain hfit | hfail := le_or_gt (zlibStream s.comp.cmpLevel s.comp.cmpIn).length Config.outRamBytes
  · rw [finishWith_fits s hfit]
    have hlen := outLen_of_fits hfit
    exact fun _ => ⟨hlen, fun i hi => read_writeBytes_zero _ (hlen ▸ hi)⟩
  · rw [finishWith_fails s hfail]
    exact holdsResult_of_invalid rfl

/-- Every command keeps that a held output is the last stream's result. -/
theorem holdsResult_exec {i : Instr} (h : HoldsResult s) (hinv : Inv s) (hexec : exec i s = .next t) : HoldsResult t := by
  obtain ⟨e, rfl⟩ | ht := exec_cases hexec
  · exact holdsResult_of_eq h (raise_out s e) (by rw [raise_comp]) (by rw [raise_comp])
  cases i with
  | nop => exact ht ▸ h
  | srst => exact ht ▸ holdsResult_of_invalid rfl
  | clrerr => exact ht ▸ holdsResult_of_eq h rfl rfl rfl
  | crcInit => exact ht ▸ holdsResult_of_eq h rfl rfl rfl
  | crcUpd n => exact ht ▸ holdsResult_of_eq h rfl rfl rfl
  | crcOut => exact ht.2 ▸ holdsResult_of_eq h rfl rfl rfl
  | pkRow =>
    obtain ⟨ho, -, -, rfl⟩ := ht
    exact holdsResult_of_open hinv ho rfl
  | pkPix =>
    obtain ⟨ha, rfl⟩ := ht
    exact holdsResult_of_open hinv (hinv.flags.rowInStream ha) rfl
  | pkBits n =>
    obtain ⟨ha, -, -, -, rfl⟩ := ht
    exact holdsResult_of_open hinv (hinv.flags.rowInStream ha) rfl
  | cmpStart =>
    obtain ⟨-, rfl⟩ := ht
    exact holdsResult_of_invalid rfl
  | cmpWr n =>
    obtain ⟨ho, -, rfl⟩ := ht
    exact holdsResult_of_open hinv ho (cmpInBytes_out _ s)
  | cmpFinish =>
    obtain ⟨-, -, rfl⟩ := ht
    exact holdsResult_finishStream s

theorem holdsResult_busRead (h : HoldsResult s) (off : Nat) (w : Width) : HoldsResult (busRead off w s) := by
  unfold busRead
  split_ifs
  · exact holdsResult_of_eq h rfl rfl rfl
  · exact holdsResult_of_eq h rfl rfl rfl
  · exact holdsResult_of_eq h (raise_out s _) (by rw [returnValue_comp, raise_comp]) (by rw [returnValue_comp, raise_comp])

theorem holdsResult_writeReg (h : HoldsResult s) (r : Reg) (v : Word) : HoldsResult (writeReg r v s) := by
  cases r <;> exact holdsResult_of_eq h rfl rfl rfl

end

/-- Settles O57: the same cases of a step; only CMP_FINISH makes a result held, and while one is held no byte enters. -/
theorem stepKeepsHeldResult : Obligations.StepKeepsHeldResult := by
  intro s t hinv h hstep
  obtain ⟨-, rfl⟩ | ⟨e, rest, -, ht⟩ := step_cases hstep
  · exact h
  have h' : HoldsResult (takeEvent rest s) := holdsResult_of_eq h rfl rfl rfl
  obtain ⟨-, -, -, i, -, -, hexec⟩ | rfl | ⟨off, w, rfl⟩ | ⟨r, v, rfl⟩ | ⟨x, rfl⟩ | rfl := ht
  · exact holdsResult_exec h' (inv_takeEvent hinv rest) hexec
  · exact holdsResult_of_invalid rfl
  · exact holdsResult_busRead h' off w
  · exact holdsResult_writeReg h' r v
  · exact holdsResult_of_eq h' (raise_out _ x) (by rw [raise_comp]) (by rw [raise_comp])
  · exact h'

end Sys2Proof.Proofs
end

section
/-! PROOFS. 70_reset_and_hazards.md section 4 and 10_state.md section 4: where a command reads the configuration, and which
commands change a flag. -/

namespace Sys2Proof.Proofs
open Sys2Proof Sys2Proof.Machine

/-! ### Latch points -/

/-- The command reads the same values from the registers `r` as from `q`: DATA, and each configuration register where it is
latched or read (70_reset_and_hazards.md section 4). -/
structure ReadsSame (i : Instr) (q r : Registers) : Prop where
  data : r.data = q.data
  level : i = .cmpStart → r.level = q.level
  row : i = .pkRow → r.filter = q.filter ∧ r.width = q.width
  ink : i = .pkPix → r.ink = q.ink

theorem finishWith_setRegs (cap : Nat) (z : List Byte) (s : State) (r : Registers) :
    finishWith cap z (s.setRegs r) = (finishWith cap z s).setRegs r := by
  unfold finishWith; split <;> rfl

theorem raise_setRegs (e : ErrorName) (s : State) (r : Registers) : raise e (s.setRegs r) = (raise e s).setRegs r := by
  rw [raise, raise, setRegs_error]
  split <;> rfl

section
variable {i : Instr} {s : State} {r : Registers}

theorem refusal_setRegs (h : ReadsSame i s.regs r) : refusal i (s.setRegs r) = refusal i s := by
  cases i with
  | pkRow => simp only [refusal, setRegs_comp, setRegs_packer, setRegs_regs, (h.row rfl).2]
  | _ => rfl

theorem effect_setRegs (hsrst : i ≠ .srst) (h : ReadsSame i s.regs r) :
    effect i (s.setRegs r) = (effect i s).setRegs r := by
  cases i with
  | srst => exact absurd rfl hsrst
  | crcUpd n => simp only [effect, setRegs_regs, h.data]; rfl
  | pkRow => simp only [effect, startRow, setRegs_regs, (h.row rfl).1, (h.row rfl).2]; rfl
  | pkPix => simp only [effect, setRegs_regs, h.data, h.ink rfl]; rfl
  | pkBits n => simp only [effect, setRegs_regs, h.data]; rfl
  | cmpStart => simp only [effect, startStream, setRegs_regs, h.level rfl]; rfl
  | cmpWr n => simp only [effect, cmpInBytes_eq, setRegs_regs, h.data]; rfl
  | cmpFinish => exact finishWith_setRegs _ _ s r
  | _ => rfl

/-- A command that reads the same values does the same, and the registers it does not read are kept. -/
theorem exec_setRegs (hsrst : i ≠ .srst) (h : ReadsSame i s.regs r) :
    ∃ t, exec i s = .next t ∧ exec i (s.setRegs r) = .next (t.setRegs r) := by
  have hr := refusal_setRegs h
  cases hc : refusal i s with
  | none => exact ⟨_, exec_of_no_refusal hc, effect_setRegs hsrst h ▸ exec_of_no_refusal (hr.trans hc)⟩
  | some e => exact ⟨_, exec_of_refusal hc, raise_setRegs e s r ▸ exec_of_refusal (hr.trans hc)⟩

end

/-- Settles O58: under any other command the changed register is not among those read. -/
theorem configurationLatchPoints : Obligations.ConfigurationLatchPoints := by
  intro i s hsrst
  refine ⟨fun l hne => ?_, fun f w hne => ?_, fun c hne => ?_⟩
  · exact exec_setRegs hsrst ⟨rfl, fun h => absurd h hne, fun _ => ⟨rfl, rfl⟩, fun _ => rfl⟩
  · exact exec_setRegs hsrst ⟨rfl, fun _ => rfl, fun h => absurd h hne, fun _ => rfl⟩
  · exact exec_setRegs hsrst ⟨rfl, fun _ => rfl, fun _ => ⟨rfl, rfl⟩, fun h => absurd h hne⟩

/-! ### Which commands change a flag -/

section
variable {i : Instr} {s t : State} (h : exec i s = .next t) (hsrst : i ≠ .srst)
include h hsrst

theorem exec_cmpOpen : t.comp.cmpOpen = s.comp.cmpOpen ∨ (i = .cmpStart ∧ t.comp.cmpOpen = true) ∨
    (i = .cmpFinish ∧ t.comp.cmpOpen = false) := by
  have hbits : ∀ bs, (pushBits bs s).comp.cmpOpen = s.comp.cmpOpen := fun bs => by
    obtain ⟨-, xs, hx⟩ := packBits_cases bs (s.packer, s.comp)
    rw [pushBits_comp, hx, foldl_enter_cmpOpen]
  obtain ⟨e, rfl⟩ | ht := exec_cases h
  · exact .inl (by rw [raise_comp])
  cases i with
  | srst => exact absurd rfl hsrst
  | nop | clrerr | crcInit | crcUpd => exact .inl (ht ▸ rfl)
  | crcOut => exact .inl (by rw [ht.2]; rfl)
  | pkRow => exact .inl (by rw [ht.2.2.2]; rfl)
  | pkPix => exact .inl (by rw [ht.2]; exact hbits [_])
  | pkBits n => exact .inl (by rw [ht.2.2.2.2]; exact hbits _)
  | cmpStart => exact .inr (.inl ⟨rfl, by rw [ht.2]; rfl⟩)
  | cmpWr n => exact .inl (by rw [ht.2.2, cmpInBytes_comp, foldl_enter_cmpOpen])
  | cmpFinish => exact .inr (.inr ⟨rfl, by rw [ht.2.2, finishWith_comp]⟩)

theorem exec_pkActive : t.packer.pkActive = s.packer.pkActive ∨ (i = .pkRow ∧ t.packer.pkActive = true) ∨
    ((i = .pkPix ∨ ∃ n, i = .pkBits n) ∧ s.packer.pkActive = true) := by
  obtain ⟨e, rfl⟩ | ht := exec_cases h
  · exact .inl (by rw [raise_packer])
  cases i with
  | srst => exact absurd rfl hsrst
  | nop | clrerr | crcInit | crcUpd => exact .inl (ht ▸ rfl)
  | crcOut => exact .inl (by rw [ht.2]; rfl)
  | pkRow => exact .inr (.inl ⟨rfl, by rw [ht.2.2.2]; rfl⟩)
  | pkPix => exact .inr (.inr ⟨.inl rfl, ht.1⟩)
  | pkBits n => exact .inr (.inr ⟨.inr ⟨n, rfl⟩, ht.1⟩)
  | cmpStart => exact .inl (by rw [ht.2]; rfl)
  | cmpWr n => exact .inl (by rw [ht.2.2, cmpInBytes_packer])
  | cmpFinish => exact .inl (by rw [ht.2.2, finishWith_packer])

theorem exec_out : t.out = s.out ∨ i = .cmpFinish ∨
    (i = .cmpStart ∧ t.out.outValid = false ∧ t.out.cfail = false) := by
  obtain ⟨e, rfl⟩ | ht := exec_cases h
  · exact .inl (raise_out s e)
  cases i with
  | srst => exact absurd rfl hsrst
  | nop | clrerr | crcInit | crcUpd => exact .inl (ht ▸ rfl)
  | crcOut => exact .inl (by rw [ht.2]; rfl)
  | pkRow => exact .inl (by rw [ht.2.2.2]; rfl)
  | pkPix => exact .inl (by rw [ht.2]; rfl)
  | pkBits n => exact .inl (by rw [ht.2.2.2.2]; rfl)
  | cmpStart => exact .inr (.inr ⟨rfl, by rw [ht.2]; exact ⟨rfl, rfl⟩⟩)
  | cmpWr n => exact .inl (by rw [ht.2.2, cmpInBytes_out])
  | cmpFinish => exact .inr (.inl rfl)

theorem exec_error : t.error = s.error ∨ (i = .clrerr ∧ t.error.err = false) ∨
    (t.error.err = true ∧ ∃ e, t = raise e s) := by
  cases hr : refusal i s with
  | none =>
    have ht := Host.Outcome.next.inj ((exec_of_no_refusal hr).symm.trans h)
    by_cases hclr : i = .clrerr
    · exact .inr (.inl ⟨hclr, by rw [← ht, hclr]; rfl⟩)
    · exact .inl (by rw [← ht, effect_error hsrst hclr])
  | some e =>
    have ht := Host.Outcome.next.inj ((exec_of_refusal hr).symm.trans h)
    cases herr : s.error.err with
    | true => exact .inl (by rw [← ht, raise_of_err e herr])
    | false => exact .inr (.inr ⟨by rw [← ht, raise_of_no_err e herr]; rfl, e, ht.symm⟩)

end

/-- Settles O59: flag by flag. -/
theorem flagsChangeOnlyAsListed : Obligations.FlagsChangeOnlyAsListed := by
  intro i s t h hsrst
  have hout := exec_out h hsrst
  refine ⟨(exec_cmpOpen h hsrst).resolve_left, fun hne => ?active, fun hne => ?valid, fun hne => ?fail, fun hne => ?err⟩
  case active =>
    refine ((exec_pkActive h hsrst).resolve_left hne).imp_right fun ⟨hi, ha⟩ => ⟨hi, ?_⟩
    exact Bool.eq_false_iff.2 fun ht => hne (ht.trans ha.symm)
  case valid => exact (hout.resolve_left fun he => hne (by rw [he])).imp_right fun ⟨hi, hv, _⟩ => ⟨hi, hv⟩
  case fail => exact (hout.resolve_left fun he => hne (by rw [he])).imp_right fun ⟨hi, _, hf⟩ => ⟨hi, hf⟩
  case err => exact (exec_error h hsrst).resolve_left fun he => hne (by rw [he])

end Sys2Proof.Proofs
end

section
/-! PROOFS. 70_reset_and_hazards.md section 5: the host's encode procedure (R147). -/

namespace Sys2Proof.Proofs
open Sys2Proof Sys2Proof.Machine

/-! ### The accesses still pending

A statement of the host is placed first and taken up, so the accesses behind it stay, and so they do through every part of the
procedure. -/

theorem writeReg_port (r : Reg) (v : Word) (s : State) : (writeReg r v s).port = s.port := by
  cases r <;> rfl

theorem busRead_pending (off : Nat) (w : Width) (s : State) : (busRead off w s).port.pending = s.port.pending := by
  unfold busRead
  split_ifs
  · rfl
  · rfl
  · rw [returnValue_port, raise_port]

theorem exec_pending {i : Instr} {s t : State} (h : exec i s = .next t) : t.port.pending = s.port.pending := by
  obtain ⟨u, hu, hp, -⟩ := everyCommandTerminates i s
  rw [← Host.Outcome.next.inj (hu.symm.trans h), hp]

/-- A step takes up the next access and no other. -/
theorem step_pending {s t : State} {e : Event} {rest : List Event} (hp : s.port.pending = e :: rest)
    (h : step s = .next t) : t.port.pending = rest := by
  obtain ⟨hnil, -⟩ | ⟨e', rest', hp', ht⟩ := step_cases h
  · rw [hp] at hnil
    cases hnil
  rw [hp] at hp'
  obtain ⟨-, rfl⟩ := List.cons.inj hp'
  obtain ⟨-, -, -, i, -, -, hexec⟩ | rfl | ⟨off, w, rfl⟩ | ⟨r, v, rfl⟩ | ⟨x, rfl⟩ | rfl := ht
  · exact exec_pending hexec
  · rfl
  · exact busRead_pending off w _
  · rw [writeReg_port]; rfl
  · rw [raise_port]; rfl
  · rfl

theorem hostStep_pending {c : Stmt} {s t : State} (h : hostStep c s = some t) : t.port.pending = s.port.pending := by
  unfold hostStep at h
  split at h
  · next hstep =>
    cases h
    exact step_pending rfl hstep
  · cases h
  · cases h

theorem hostRun_pending {p : List Stmt} {s t : State} (h : hostRun p s = some t) : t.port.pending = s.port.pending := by
  induction p generalizing s with
  | nil => exact Option.some.inj h ▸ rfl
  | cons c p ih =>
    obtain ⟨u, hu, ht⟩ := Option.bind_eq_some_iff.1 h
    exact (ih ht).trans (hostStep_pending hu)

theorem hostRead_pending {c : Stmt} {s t : State} {v : Word} (h : hostRead c s = some (v, t)) :
    t.port.pending = s.port.pending := by
  obtain ⟨u, hu, ht⟩ := Option.bind_eq_some_iff.1 h
  obtain ⟨x, -, hx⟩ := Option.map_eq_some_iff.1 ht
  obtain ⟨-, rfl⟩ := Prod.mk.inj hx
  exact hostStep_pending hu

theorem hostChunk_pending {ty : Word} {payload out : List Byte} {covers : List Stmt} {s t : State}
    (h : hostChunk ty payload covers s = some (out, t)) : t.port.pending = s.port.pending := by
  obtain ⟨u, hu, ht⟩ := Option.bind_eq_some_iff.1 h
  obtain ⟨⟨v, x⟩, hx, he⟩ := Option.map_eq_some_iff.1 ht
  obtain ⟨-, rfl⟩ := Prod.mk.inj he
  exact (hostRead_pending hx).trans (hostRun_pending hu)

theorem hostReadWords_pending {n k : Nat} {ws : List Word} {s t : State} (h : hostReadWords n k s = some (ws, t)) :
    t.port.pending = s.port.pending := by
  induction n generalizing k s ws with
  | zero =>
    obtain ⟨-, rfl⟩ := Prod.mk.inj (Option.some.inj h)
    rfl
  | succ n ih =>
    obtain ⟨⟨v, u⟩, hu, ht⟩ := Option.bind_eq_some_iff.1 h
    obtain ⟨⟨ws', x⟩, hx, he⟩ := Option.map_eq_some_iff.1 ht
    obtain ⟨-, rfl⟩ := Prod.mk.inj he
    exact (ih hx).trans (hostRead_pending hu)

theorem hostReadOut_pending {z : List Byte} {s t : State} (h : hostReadOut s = some (z, t)) :
    t.port.pending = s.port.pending := by
  obtain ⟨⟨v, u⟩, hu, ht⟩ := Option.bind_eq_some_iff.1 h
  obtain ⟨⟨ws, x⟩, hx, he⟩ := Option.map_eq_some_iff.1 ht
  obtain ⟨-, rfl⟩ := Prod.mk.inj he
  exact (hostReadWords_pending hx).trans (hostRead_pending hu)

theorem hostEmit_pending {head out : List Byte} {s t : State} (h : hostEmit head s = some (out, t)) :
    t.port.pending = s.port.pending := by
  obtain ⟨⟨z, u⟩, hu, ht⟩ := Option.bind_eq_some_iff.1 h
  obtain ⟨⟨data, u'⟩, hu', ht'⟩ := Option.bind_eq_some_iff.1 ht
  obtain ⟨⟨fin, x⟩, hx, he⟩ := Option.map_eq_some_iff.1 ht'
  obtain ⟨-, rfl⟩ := Prod.mk.inj he
  exact (hostChunk_pending hx).trans ((hostChunk_pending hu').trans (hostReadOut_pending hu))

theorem hostEncode_pending {level filter w h ink : Word} {tag : Byte} {pixel : Nat → Nat → Word} {out : List Byte}
    {s t : State} (he : hostEncode level filter w h ink tag pixel s = some (out, t)) :
    t.port.pending = s.port.pending := by
  obtain ⟨⟨header, s1⟩, h1, he⟩ := Option.bind_eq_some_iff.1 he
  obtain ⟨⟨palette, s2⟩, h2, he⟩ := Option.bind_eq_some_iff.1 he
  obtain ⟨s3, h3, he⟩ := Option.bind_eq_some_iff.1 he
  obtain ⟨⟨status, s4⟩, h4, he⟩ := Option.bind_eq_some_iff.1 he
  have hp : s4.port.pending = s.port.pending :=
    (hostRead_pending h4).trans ((hostRun_pending h3).trans ((hostChunk_pending h2).trans (hostChunk_pending h1)))
  simp only at he
  split at he
  · obtain ⟨-, rfl⟩ := Prod.mk.inj (Option.some.inj he)
    exact hp
  · exact (hostEmit_pending he).trans hp

/-! ### The rows of an image -/

/-- The pixel commands of a row, each after its write of DATA. -/
def rowCommands (pixels : List Word) : List (Word × Instr) := pixels.map fun c => (c, .pkPix)

theorem rowStmts_eq (pixels : List Word) :
    rowStmts pixels = .cmd .pkRow :: (rowCommands pixels).flatMap fun c => [.wr .data c.1, .cmd c.2] := by
  rw [rowStmts, rowCommands, List.flatMap_map]

theorem rowCommands_pixelBits (pixels : List Word) (ink : Word) :
    (rowCommands pixels).flatMap (pixelBits ink) = pixels.map fun c => pixelBit c ink := by
  rw [rowCommands, List.flatMap_map]
  exact List.map_eq_flatMap.symm

theorem rowCommands_packsPixels {pixels : List Word} {c : Word × Instr} (h : c ∈ rowCommands pixels) :
    packsPixels c.2 = true ∧ c.2.wellFormed = true := by
  obtain ⟨v, -, rfl⟩ := List.mem_map.1 h
  exact ⟨rfl, rfl⟩

/-- The bytes of the packed rows of an image (41_packer.md R74). -/
def imageBytes (f : Byte) (ink : Word) (rows : List (List Word)) : List Byte :=
  rows.flatMap fun row => rowBytes f (row.map fun c => pixelBit c ink)

/-- One row of the host's: it has entered the compressor whole and is counted, and of the rest only DATA has changed. -/
theorem hostRun_row {pixels : List Word} {s : State} (ho : s.comp.cmpOpen = true) (ha : s.packer.pkActive = false)
    (hw : s.regs.width ≠ 0#32) (hlen : pixels.length = s.regs.width.toNat) :
    ∃ d, hostRun (rowStmts pixels) s = some ((writeReg .data d s).setUnits
      (endedRow (s.packer.begin s.regs.width),
        (rowBytes s.regs.filter (pixels.map fun c => pixelBit c s.regs.ink)).foldl Compressor.enter s.comp)) := by
  have hbits := rowCommands_pixelBits pixels s.regs.ink
  obtain ⟨d, hd⟩ := runCommands_row (rowCommands pixels) s hw (fun c hc => (rowCommands_packsPixels hc).1)
    (by rw [hbits, List.length_map, hlen])
  rw [hbits] at hd
  refine ⟨d, ?_⟩
  rw [rowStmts_eq, hostRun_cons _ (hostStep_cmd rfl (exec_pkRow ho ha hw))]
  exact hostRun_commands _ (fun c hc => (rowCommands_packsPixels hc).2) hd

/-- All the rows. -/
theorem hostRun_rows (rows : List (List Word)) (s : State) (ho : s.comp.cmpOpen = true) (ha : s.packer.pkActive = false)
    (hw : s.regs.width ≠ 0#32) (hlen : ∀ row ∈ rows, row.length = s.regs.width.toNat) :
    ∃ d p, p.pkActive = false ∧ p.pkRows = s.packer.pkRows + BitVec.ofNat 32 rows.length ∧
      hostRun (rows.flatMap rowStmts) s = some ((writeReg .data d s).setUnits
        (p, (imageBytes s.regs.filter s.regs.ink rows).foldl Compressor.enter s.comp)) := by
  induction rows generalizing s with
  | nil => exact ⟨s.regs.data, s.packer, ha, (BitVec.add_zero _).symm, rfl⟩
  | cons row rows ih =>
    obtain ⟨d, hd⟩ := hostRun_row ho ha hw (hlen row (List.mem_cons_self ..))
    obtain ⟨d', p, hactive, hrows, hp⟩ := ih
      ((writeReg .data d s).setUnits (endedRow (s.packer.begin s.regs.width),
        (rowBytes s.regs.filter (row.map fun c => pixelBit c s.regs.ink)).foldl Compressor.enter s.comp))
      ((foldl_enter_cmpOpen _ _).trans ho) rfl hw
      (fun r hr => hlen r (List.mem_cons_of_mem _ hr))
    refine ⟨d', p, hactive, ?_, ?_⟩
    · rw [hrows, List.length_cons, Nat.add_comm rows.length 1, BitVec.ofNat_add, ← BitVec.add_assoc]
      rfl
    · rw [List.flatMap_cons, hostRun_append, hd, Option.bind_some, hp, imageBytes, imageBytes, List.flatMap_cons,
        List.foldl_append]
      rfl

/-! ### The whole stream -/

/-- The registers after the configuration writes of the procedure. -/
def configured (level filter w ink : Word) (s : State) : State :=
  writeReg .ink ink (writeReg .width w (writeReg .filter filter (writeReg .level level s)))

/-- The value the write rule of FILTER stores (10_state.md R26). -/
def storedFilter (filter : Word) : Byte := if filter.toNat ≤ Config.filterLast then filter.setWidth 8 else 0x00#8

theorem writeReg_filter_eq (filter : Word) (s : State) :
    writeReg .filter filter s = s.setRegs { s.regs with filter := storedFilter filter } := by
  unfold storedFilter
  split_ifs with h
  · exact writeReg_filter_of_le h
  · exact writeReg_filter_of_gt (Nat.lt_of_not_le h)

/-- The registers as the configuration writes leave them. -/
def configuredRegs (level filter w ink : Word) (r : Registers) : Registers :=
  { r with level := level.setWidth 4, filter := storedFilter filter, width := w, ink := ink }

theorem configured_eq {level : Word} (hlevel : level.toNat ≤ 9) (filter w ink : Word) (s : State) :
    configured level filter w ink s = s.setRegs (configuredRegs level filter w ink s.regs) := by
  rw [configured, writeReg_level_of_le hlevel, writeReg_filter_eq]
  rfl

theorem hostRun_configuration (level filter w ink : Word) (s : State) (p : List Stmt) :
    hostRun ([.wr .level level, .wr .filter filter, .wr .width w, .wr .ink ink] ++ p) s =
      hostRun p (configured level filter w ink s) := by
  simp only [List.cons_append, List.nil_append]
  rw [hostRun_cons _ (hostStep_wr (by decide) _ _), hostRun_cons _ (hostStep_wr (by decide) _ _),
    hostRun_cons _ (hostStep_wr (by decide) _ _), hostRun_cons _ (hostStep_wr (by decide) _ _)]
  rfl

/-- What CMP_FINISH leaves: the result is held, or it did not fit. -/
def Finished (z : List Byte) (o : Output) : Prop :=
  (z.length ≤ Config.outRamBytes ∧ o.cfail = false ∧ HoldsBytes o z) ∨
    (Config.outRamBytes < z.length ∧ o.cfail = true)

theorem finished_finishWith (z : List Byte) (s : State) : Finished z (finishWith Config.outRamBytes z s).out := by
  obtain hfit | hfail := le_or_gt z.length Config.outRamBytes
  · rw [finishWith_fits s hfit]
    exact .inl ⟨hfit, rfl, rfl, outLen_of_fits hfit, fun _ => read_writeBytes_zero _⟩
  · rw [finishWith_fails s hfail]
    exact .inr ⟨hfail, rfl⟩

theorem hostRun_cmpFinish {s : State} {z : List Byte} {rows : Word} {e : ErrorRecord} (ho : s.comp.cmpOpen = true)
    (ha : s.packer.pkActive = false) (hz : zlibStream s.comp.cmpLevel s.comp.cmpIn = z) (hrows : s.packer.pkRows = rows)
    (he : s.error = e) :
    ∃ t, hostRun [.cmd .cmpFinish] s = some t ∧ Finished z t.out ∧ t.comp.cmpOpen = false ∧ t.packer.pkRows = rows ∧
      t.error = e := by
  refine ⟨finishStream s, hostRun_cons [] (hostStep_cmd rfl (exec_cmpFinish ho ha)), ?_⟩
  rw [finishStream, hz]
  exact ⟨finished_finishWith z s, by rw [finishWith_comp], by rw [finishWith_packer, hrows], by rw [finishWith_error, he]⟩

/-- From the write of LEVEL to CMP_FINISH: the stream of the image's packed rows is finished. -/
theorem hostRun_encodeStmts {level w : Word} {rows : List (List Word)} {s : State} (filter ink : Word)
    (ho : s.comp.cmpOpen = false) (ha : s.packer.pkActive = false) (hlevel : level.toNat ≤ 9) (hw : w ≠ 0#32)
    (hlen : ∀ row ∈ rows, row.length = w.toNat) :
    ∃ t, hostRun (encodeStmts level filter w ink rows) s = some t ∧
      Finished (zlibStream (level.setWidth 4) (imageBytes (storedFilter filter) ink rows)) t.out ∧
      t.comp.cmpOpen = false ∧ t.packer.pkRows = BitVec.ofNat 32 rows.length ∧ t.error = s.error := by
  have hstart : hostStep (.cmd .cmpStart) (s.setRegs (configuredRegs level filter w ink s.regs)) =
      some (startStream (s.setRegs (configuredRegs level filter w ink s.regs))) := hostStep_cmd rfl (exec_cmpStart ho)
  obtain ⟨d, p, hactive, hrows, hrun⟩ :=
    hostRun_rows rows (startStream (s.setRegs (configuredRegs level filter w ink s.regs))) rfl ha hw hlen
  have hsplit : encodeStmts level filter w ink rows =
      [.wr .level level, .wr .filter filter, .wr .width w, .wr .ink ink] ++
        (.cmd .cmpStart :: (rows.flatMap rowStmts ++ [.cmd .cmpFinish])) := rfl
  rw [hsplit, hostRun_configuration, configured_eq hlevel, hostRun_cons _ hstart, hostRun_append, hrun, Option.bind_some]
  refine hostRun_cmpFinish (foldl_enter_cmpOpen _ _) hactive ?_ (hrows.trans (BitVec.zero_add _)) rfl
  rw [setUnits_comp, foldl_enter_cmpLevel, foldl_enter_cmpIn]
  rfl

/-! ### The procedure -/

theorem imageRows_length (w h : Word) (pixel : Nat → Nat → Word) : (imageRows w h pixel).length = h.toNat := by
  simp [imageRows]

theorem imageRows_row_length {w h : Word} {pixel : Nat → Nat → Word} {row : List Word} (hr : row ∈ imageRows w h pixel) :
    row.length = w.toNat := by
  obtain ⟨y, -, rfl⟩ := List.mem_map.1 hr
  simp

theorem hostResult_of_holds {s : State} {z : List Byte} {w h : Word} {tag : Byte} (hok : s.out.cfail = false)
    (hz : HoldsBytes s.out z) : hostResult w h tag s = container w h tag z := by
  rw [hostResult, hok, if_neg Bool.false_ne_true, outBytes_of_holds hz]

/-- Settles O60: header and palette chunk, the stream, then by CFAIL nothing more or the data and the terminator chunk. -/
theorem hostEncodeYieldsContainer : Obligations.HostEncodeYieldsContainer := by
  intro s level filter w h ink tag pixel ho ha hlevel hw f x z
  obtain ⟨d1, c1, p1, h1⟩ := hostChunk_crcStmts tagIhdr (headerPayload w h tag) s
  obtain ⟨d2, c2, p2, h2⟩ := hostChunk_crcStmts tagPlte palettePayload (((writeReg .data d1 s).setCrc c1).setPort p1)
  obtain ⟨t, ht, hfin, hopen, hrows, herr⟩ := hostRun_encodeStmts filter ink (rows := imageRows w h pixel)
    (s := ((writeReg .data d2 (((writeReg .data d1 s).setCrc c1).setPort p1)).setCrc c2).setPort p2) ho ha hlevel hw
    (fun _ => imageRows_row_length)
  rw [imageRows_length, BitVec.ofNat_toNat, BitVec.setWidth_eq] at hrows
  have hcfail : (statusWord t).getLsbD 3 = t.out.cfail := statusWord_getLsbD t 3 (by omega)
  have hrun : hostEncode level filter w h ink tag pixel s =
      if t.out.cfail then some ([], returnValue (statusWord t) t)
      else hostEmit (signature ++ chunk tagIhdr (headerPayload w h tag) ++ chunk tagPlte palettePayload)
        (returnValue (statusWord t) t) := by
    rw [hostEncode, h1, Option.bind_some, h2, Option.bind_some, ht, Option.bind_some, hostRead_rd, Option.bind_some,
      ← hcfail]
    rfl
  obtain ⟨hfit, hok, hholds⟩ | ⟨hfail, hcf⟩ := hfin
  · obtain ⟨d, c, p, hemit⟩ := hostEmit_holds (s := returnValue (statusWord t) t)
      (signature ++ chunk tagIhdr (headerPayload w h tag) ++ chunk tagPlte palettePayload) hholds hfit hopen
    rw [hok, if_neg Bool.false_ne_true, hemit] at hrun
    have hresult : hostResult w h tag (((writeReg .data d (returnValue (statusWord t) t)).setCrc c).setPort p) =
        container w h tag z := hostResult_of_holds hok hholds
    exact ⟨_, _, hrun, hresult.symm, fun _ => rfl, fun hlt => absurd hlt (Nat.not_lt.2 hfit),
      hrows, herr, hostEncode_pending hrun⟩
  · rw [hcf, if_pos rfl] at hrun
    exact ⟨_, _, hrun, (if_pos hcf).symm, fun hle => absurd hle (Nat.not_le.2 hfail), fun _ => rfl, hrows, herr,
      hostEncode_pending hrun⟩

end Sys2Proof.Proofs
end
